-- ==== Sys2Proof/Word.lean ====
section
/-! DEFINITION. The word types of CORE (spec/00_scope.md R10: unsigned integers of a fixed width). -/

namespace Sys2Proof

/-- An 8-bit value: a general register, a memory byte, a timer (10_state.md R21, R32, R34). -/
abbrev Byte := BitVec 8

/-- A 16-bit value: an instruction word, PC, I, a return address (10_state.md R25, R26, R29). -/
abbrev Word := BitVec 16

/-- The 12-bit address field NNN of an instruction (30_encoding.md R91). -/
abbrev Addr12 := BitVec 12

/-- A register or key index, 0 to 15 (10_state.md R21, R36). -/
abbrev Ix16 := Fin 16

/-- The index of VF, the flag register (10_state.md R22). -/
abbrev VF : Ix16 := 15

end Sys2Proof
end

