-- ==== Sys2Proof/Syntax.lean ====
section
/-! DEFINITION. The instructions of CORE, one constructor per row of spec/opcode_table.json
(spec/30_encoding.md R95). Operands are the fields of R91: X and Y are register indices, NN a byte,
N a row count, NNN a 12-bit address. -/

namespace Sys2Proof

/-- The 34 instructions and NOP (30_encoding.md R95). -/
inductive Instr where
  /-- 00E0: clear the display. -/
  | cls
  /-- 00EE: return from subroutine. -/
  | ret
  /-- 1NNN: jump. -/
  | jp (nnn : Addr12)
  /-- 2NNN: call. -/
  | call (nnn : Addr12)
  /-- 3XNN: skip if VX = NN. -/
  | seImm (x : Ix16) (nn : Byte)
  /-- 4XNN: skip if VX ≠ NN. -/
  | sneImm (x : Ix16) (nn : Byte)
  /-- 5XY0: skip if VX = VY. -/
  | seReg (x y : Ix16)
  /-- 6XNN: VX <- NN. -/
  | ldImm (x : Ix16) (nn : Byte)
  /-- 7XNN: VX <- VX + NN, no flag. -/
  | addImm (x : Ix16) (nn : Byte)
  /-- 8XY0: VX <- VY. -/
  | ldReg (x y : Ix16)
  /-- 8XY1: VX <- VX | VY. -/
  | orReg (x y : Ix16)
  /-- 8XY2: VX <- VX & VY. -/
  | andReg (x y : Ix16)
  /-- 8XY3: VX <- VX ^ VY. -/
  | xorReg (x y : Ix16)
  /-- 8XY4: VX <- VX + VY, VF = carry. -/
  | addReg (x y : Ix16)
  /-- 8XY5: VX <- VX - VY, VF = no borrow. -/
  | subReg (x y : Ix16)
  /-- 8XY6: VX <- VX or VY shifted right by one, VF = the bit shifted out. -/
  | shr (x y : Ix16)
  /-- 8XY7: VX <- VY - VX, VF = no borrow. -/
  | subnReg (x y : Ix16)
  /-- 8XYE: VX <- VX or VY shifted left by one, VF = the bit shifted out. -/
  | shl (x y : Ix16)
  /-- 9XY0: skip if VX ≠ VY. -/
  | sneReg (x y : Ix16)
  /-- ANNN: I <- NNN. -/
  | ldI (nnn : Addr12)
  /-- BNNN: jump to NNN + V0, or NNN + VX under Q.jump_vx (X = NNN[11:8]). -/
  | jpV0 (nnn : Addr12)
  /-- CXNN: VX <- a random byte & NN. -/
  | rnd (x : Ix16) (nn : Byte)
  /-- DXYN: draw an N-row sprite at column VX, row VY; VF = collision. -/
  | drw (x y : Ix16) (n : Fin 16)
  /-- EX9E: skip if key VX is down. -/
  | skp (x : Ix16)
  /-- EXA1: skip if key VX is not down. -/
  | sknp (x : Ix16)
  /-- FX07: VX <- DT. -/
  | ldVxDT (x : Ix16)
  /-- FX0A: wait for a key press and release, VX <- its index. -/
  | ldVxK (x : Ix16)
  /-- FX15: DT <- VX. -/
  | ldDT (x : Ix16)
  /-- FX18: ST <- VX. -/
  | ldST (x : Ix16)
  /-- FX1E: I <- I + VX, VF = beyond 0x0FFF. -/
  | addI (x : Ix16)
  /-- FX29: I <- the address of the glyph of VX's low nibble. -/
  | ldF (x : Ix16)
  /-- FX33: store the three decimal digits of VX at I, I + 1, I + 2. -/
  | ldB (x : Ix16)
  /-- FX55: store V0 to VX at I, I + 1, ... -/
  | storeRegs (x : Ix16)
  /-- FX65: load V0 to VX from I, I + 1, ... -/
  | loadRegs (x : Ix16)
  /-- Any word that matches none of the 34 rows (30_encoding.md R99); it carries the word (log 18). -/
  | nop (w : Word)
  deriving DecidableEq, Repr

end Sys2Proof
end

