-- ==== Sys2Proof/WellFormed.lean ====
section
/-! DEFINITION. Which terms of `Instr` stand for an instruction word. Every operand has its field's
exact width by its type, so the one check left is that NOP carries an unrecognised word
(spec/30_encoding.md R99). -/

namespace Sys2Proof

/-- The unrecognised words, group by group, as the table of 30_encoding.md R99 lists them. -/
def unrecognised (w : Word) : Bool :=
  let n := w.toNat % 0x10
  let nn := w.toNat % 0x100
  match w.toNat / 0x1000 with
  | 0x0 => w.toNat != 0x00E0 && w.toNat != 0x00EE
  | 0x5 => n != 0
  | 0x8 => [0x8, 0x9, 0xA, 0xB, 0xC, 0xD, 0xF].contains n
  | 0x9 => n != 0
  | 0xE => nn != 0x9E && nn != 0xA1
  | 0xF => !([0x07, 0x0A, 0x15, 0x18, 0x1E, 0x29, 0x33, 0x55, 0x65].contains nn)
  | _ => false

/-- Well-formed: the term stands for at least one instruction word. -/
def Instr.wf : Instr → Bool
  | .nop w => unrecognised w
  | .cls | .ret | .jp _ | .call _ | .seImm _ _ | .sneImm _ _ | .seReg _ _ | .ldImm _ _
  | .addImm _ _ | .ldReg _ _ | .orReg _ _ | .andReg _ _ | .xorReg _ _ | .addReg _ _
  | .subReg _ _ | .shr _ _ | .subnReg _ _ | .shl _ _ | .sneReg _ _ | .ldI _ | .jpV0 _
  | .rnd _ _ | .drw _ _ _ | .skp _ | .sknp _ | .ldVxDT _ | .ldVxK _ | .ldDT _ | .ldST _
  | .addI _ | .ldF _ | .ldB _ | .storeRegs _ | .loadRegs _ => true

end Sys2Proof
end

