-- ==== Sys2Proof/Decode.lean ====
section
/-! DEFINITION. The decoder, total on any bytes, and after it the encoder
(spec/30_encoding.md R90 to R96, R99; 20_memory.md R64 for the byte order). -/

namespace Sys2Proof

/-! ### Fields of an instruction word (R91) -/

/-- OP, bits 15:12, as a group number. -/
def opField (w : Word) : Nat := (w.extractLsb' 12 4).toNat
/-- X, bits 11:8. -/
def xField (w : Word) : Ix16 := (w.extractLsb' 8 4).toFin
/-- Y, bits 7:4. -/
def yField (w : Word) : Ix16 := (w.extractLsb' 4 4).toFin
/-- N, bits 3:0. -/
def nField (w : Word) : Fin 16 := (w.extractLsb' 0 4).toFin
/-- NN, bits 7:0. -/
def nnField (w : Word) : Byte := w.extractLsb' 0 8
/-- NNN, bits 11:0. -/
def nnnField (w : Word) : Addr12 := w.extractLsb' 0 12

/-! ### The decoder (R94) -/

/-- Group 8, sub-dispatched by N. -/
def decodeAlu (w : Word) : Instr :=
  let x := xField w
  let y := yField w
  match (nField w).val with
  | 0x0 => .ldReg x y
  | 0x1 => .orReg x y
  | 0x2 => .andReg x y
  | 0x3 => .xorReg x y
  | 0x4 => .addReg x y
  | 0x5 => .subReg x y
  | 0x6 => .shr x y
  | 0x7 => .subnReg x y
  | 0xE => .shl x y
  | _ => .nop w

/-- Group E, dispatched by NN. -/
def decodeKey (w : Word) : Instr :=
  match (nnField w).toNat with
  | 0x9E => .skp (xField w)
  | 0xA1 => .sknp (xField w)
  | _ => .nop w

/-- Group F, dispatched by NN. -/
def decodeMisc (w : Word) : Instr :=
  let x := xField w
  match (nnField w).toNat with
  | 0x07 => .ldVxDT x
  | 0x0A => .ldVxK x
  | 0x15 => .ldDT x
  | 0x18 => .ldST x
  | 0x1E => .addI x
  | 0x29 => .ldF x
  | 0x33 => .ldB x
  | 0x55 => .storeRegs x
  | 0x65 => .loadRegs x
  | _ => .nop w

/-- Decode(w) of 30_encoding.md R94: total, and a function of the word alone. -/
def decodeWord (w : Word) : Instr :=
  if w = 0x00E0#16 then .cls else
  match opField w with
  | 0x0 => if w = 0x00EE#16 then .ret else .nop w
  | 0x1 => .jp (nnnField w)
  | 0x2 => .call (nnnField w)
  | 0x3 => .seImm (xField w) (nnField w)
  | 0x4 => .sneImm (xField w) (nnField w)
  | 0x5 => if nField w = 0 then .seReg (xField w) (yField w) else .nop w
  | 0x6 => .ldImm (xField w) (nnField w)
  | 0x7 => .addImm (xField w) (nnField w)
  | 0x8 => decodeAlu w
  | 0x9 => if nField w = 0 then .sneReg (xField w) (yField w) else .nop w
  | 0xA => .ldI (nnnField w)
  | 0xB => .jpV0 (nnnField w)
  | 0xC => .rnd (xField w) (nnField w)
  | 0xD => .drw (xField w) (yField w) (nField w)
  | 0xE => decodeKey w
  | 0xF => decodeMisc w
  | _ => .nop w

/-- Why a byte string is not an instruction. -/
inductive DecodeError where
  /-- Fewer than the two bytes every instruction has (30_encoding.md R90). -/
  | truncated
  deriving DecidableEq, Repr

/-- The word of two bytes, the one at the lower address on the high side (20_memory.md R64). -/
def joinBytes (hi lo : Byte) : Word := hi ++ lo

/-- Reads one instruction off a byte string and returns the rest. -/
def decode : List Byte → Except DecodeError (Instr × List Byte)
  | hi :: lo :: rest => .ok (decodeWord (joinBytes hi lo), rest)
  | _ => .error .truncated

/-! ### The opcode map (R95), the encoding table -/

/-- One row of the opcode map: a word w is of the row when (w & mask) = value. -/
structure OpRow where
  mnemonic : String
  value : Word
  mask : Word
  deriving DecidableEq, Repr

/-- A word matches a row (30_encoding.md R95). -/
def OpRow.hits (r : OpRow) (w : Word) : Bool := w &&& r.mask == r.value

/-- Rows of the groups 0 to 7 (30_encoding.md R95). -/
def opRowsLow : List OpRow :=
  [⟨"CLS", 0x00E0, 0xFFFF⟩, ⟨"RET", 0x00EE, 0xFFFF⟩, ⟨"JP_NNN", 0x1000, 0xF000⟩,
   ⟨"CALL_NNN", 0x2000, 0xF000⟩, ⟨"SE_Vx__NN", 0x3000, 0xF000⟩, ⟨"SNE_Vx__NN", 0x4000, 0xF000⟩,
   ⟨"SE_Vx__Vy", 0x5000, 0xF00F⟩, ⟨"LD_Vx__NN", 0x6000, 0xF000⟩, ⟨"ADD_Vx__NN", 0x7000, 0xF000⟩]

/-- Rows of the group 8 (30_encoding.md R95). -/
def opRowsAlu : List OpRow :=
  [⟨"LD_Vx__Vy", 0x8000, 0xF00F⟩, ⟨"OR_Vx__Vy", 0x8001, 0xF00F⟩, ⟨"AND_Vx__Vy", 0x8002, 0xF00F⟩,
   ⟨"XOR_Vx__Vy", 0x8003, 0xF00F⟩, ⟨"ADD_Vx__Vy", 0x8004, 0xF00F⟩, ⟨"SUB_Vx__Vy", 0x8005, 0xF00F⟩,
   ⟨"SHR_Vx____Vy", 0x8006, 0xF00F⟩, ⟨"SUBN_Vx__Vy", 0x8007, 0xF00F⟩, ⟨"SHL_Vx____Vy", 0x800E, 0xF00F⟩]

/-- Rows of the groups 9 to E (30_encoding.md R95). -/
def opRowsHigh : List OpRow :=
  [⟨"SNE_Vx__Vy", 0x9000, 0xF00F⟩, ⟨"LD_I__NNN", 0xA000, 0xF000⟩, ⟨"JP_V0__NNN", 0xB000, 0xF000⟩,
   ⟨"RND_Vx__NN", 0xC000, 0xF000⟩, ⟨"DRW_Vx__Vy__N", 0xD000, 0xF000⟩, ⟨"SKP_Vx", 0xE09E, 0xF0FF⟩,
   ⟨"SKNP_Vx", 0xE0A1, 0xF0FF⟩]

/-- Rows of the group F (30_encoding.md R95). -/
def opRowsMisc : List OpRow :=
  [⟨"LD_Vx__DT", 0xF007, 0xF0FF⟩, ⟨"LD_Vx__K", 0xF00A, 0xF0FF⟩, ⟨"LD_DT__Vx", 0xF015, 0xF0FF⟩,
   ⟨"LD_ST__Vx", 0xF018, 0xF0FF⟩, ⟨"ADD_I__Vx", 0xF01E, 0xF0FF⟩, ⟨"LD_F__Vx", 0xF029, 0xF0FF⟩,
   ⟨"LD_B__Vx", 0xF033, 0xF0FF⟩, ⟨"LD__I___Vx", 0xF055, 0xF0FF⟩, ⟨"LD_Vx___I", 0xF065, 0xF0FF⟩]

/-- The 34 instruction rows in the order of 30_encoding.md R95 (the catch-all NOP has no row). -/
def opRows : List OpRow := opRowsLow ++ opRowsAlu ++ opRowsHigh ++ opRowsMisc

/-- The mnemonic of spec/opcode_table.json a constructor stands for. -/
def Instr.mnemonic : Instr → String
  | .cls => "CLS"
  | .ret => "RET"
  | .jp _ => "JP_NNN"
  | .call _ => "CALL_NNN"
  | .seImm _ _ => "SE_Vx__NN"
  | .sneImm _ _ => "SNE_Vx__NN"
  | .seReg _ _ => "SE_Vx__Vy"
  | .ldImm _ _ => "LD_Vx__NN"
  | .addImm _ _ => "ADD_Vx__NN"
  | .ldReg _ _ => "LD_Vx__Vy"
  | .orReg _ _ => "OR_Vx__Vy"
  | .andReg _ _ => "AND_Vx__Vy"
  | .xorReg _ _ => "XOR_Vx__Vy"
  | .addReg _ _ => "ADD_Vx__Vy"
  | .subReg _ _ => "SUB_Vx__Vy"
  | .shr _ _ => "SHR_Vx____Vy"
  | .subnReg _ _ => "SUBN_Vx__Vy"
  | .shl _ _ => "SHL_Vx____Vy"
  | .sneReg _ _ => "SNE_Vx__Vy"
  | .ldI _ => "LD_I__NNN"
  | .jpV0 _ => "JP_V0__NNN"
  | .rnd _ _ => "RND_Vx__NN"
  | .drw _ _ _ => "DRW_Vx__Vy__N"
  | .skp _ => "SKP_Vx"
  | .sknp _ => "SKNP_Vx"
  | .ldVxDT _ => "LD_Vx__DT"
  | .ldVxK _ => "LD_Vx__K"
  | .ldDT _ => "LD_DT__Vx"
  | .ldST _ => "LD_ST__Vx"
  | .addI _ => "ADD_I__Vx"
  | .ldF _ => "LD_F__Vx"
  | .ldB _ => "LD_B__Vx"
  | .storeRegs _ => "LD__I___Vx"
  | .loadRegs _ => "LD_Vx___I"
  | .nop _ => "NOP"

/-! ### The encoder (formats of R92, opcodes of R95) -/

/-- A register or key index as the four bits of a field. -/
def nibble (k : Fin 16) : BitVec 4 := BitVec.ofFin k

/-- Format NNN: OP, then the 12-bit address. -/
def wordNNN (op : BitVec 4) (nnn : Addr12) : Word := op ++ nnn
/-- Format XNN: OP, X, then the byte. -/
def wordXNN (op : BitVec 4) (x : Ix16) (nn : Byte) : Word := op ++ nibble x ++ nn
/-- Format XYN: OP, X, Y, then a nibble. -/
def wordXYN (op : BitVec 4) (x y : Ix16) (n : BitVec 4) : Word := op ++ nibble x ++ nibble y ++ n

/-- The word of an instruction. -/
def encode : Instr → Word
  | .cls => 0x00E0
  | .ret => 0x00EE
  | .jp nnn => wordNNN 0x1 nnn
  | .call nnn => wordNNN 0x2 nnn
  | .seImm x nn => wordXNN 0x3 x nn
  | .sneImm x nn => wordXNN 0x4 x nn
  | .seReg x y => wordXYN 0x5 x y 0x0
  | .ldImm x nn => wordXNN 0x6 x nn
  | .addImm x nn => wordXNN 0x7 x nn
  | .ldReg x y => wordXYN 0x8 x y 0x0
  | .orReg x y => wordXYN 0x8 x y 0x1
  | .andReg x y => wordXYN 0x8 x y 0x2
  | .xorReg x y => wordXYN 0x8 x y 0x3
  | .addReg x y => wordXYN 0x8 x y 0x4
  | .subReg x y => wordXYN 0x8 x y 0x5
  | .shr x y => wordXYN 0x8 x y 0x6
  | .subnReg x y => wordXYN 0x8 x y 0x7
  | .shl x y => wordXYN 0x8 x y 0xE
  | .sneReg x y => wordXYN 0x9 x y 0x0
  | .ldI nnn => wordNNN 0xA nnn
  | .jpV0 nnn => wordNNN 0xB nnn
  | .rnd x nn => wordXNN 0xC x nn
  | .drw x y n => wordXYN 0xD x y (nibble n)
  | .skp x => wordXNN 0xE x 0x9E
  | .sknp x => wordXNN 0xE x 0xA1
  | .ldVxDT x => wordXNN 0xF x 0x07
  | .ldVxK x => wordXNN 0xF x 0x0A
  | .ldDT x => wordXNN 0xF x 0x15
  | .ldST x => wordXNN 0xF x 0x18
  | .addI x => wordXNN 0xF x 0x1E
  | .ldF x => wordXNN 0xF x 0x29
  | .ldB x => wordXNN 0xF x 0x33
  | .storeRegs x => wordXNN 0xF x 0x55
  | .loadRegs x => wordXNN 0xF x 0x65
  | .nop w => w

/-- The high byte of a word, stored at the lower address (20_memory.md R64). -/
def hiByte (w : Word) : Byte := w.extractLsb' 8 8
/-- The low byte of a word. -/
def loByte (w : Word) : Byte := w.extractLsb' 0 8

/-- The bytes of an instruction in the order memory holds them. -/
def encodeBytes (i : Instr) : List Byte := [hiByte (encode i), loByte (encode i)]

/-! ### The host's view of the decoder -/

/-- The table's number of an instruction, of which only the first nbits bits may be set, as the
16-bit word it stands for. -/
def tableWord (nbits w : Nat) : Word := BitVec.ofNat 16 (w % 2 ^ nbits)

/-- What the decoder reads from an instruction whose bits, numbered as spec/opcode_table.json numbers
them, are w: the word's two bytes, high byte first, are given to `decode`. -/
def decodeTableWord (nbits w : Nat) : Option Instr :=
  match decode [hiByte (tableWord nbits w), loByte (tableWord nbits w)] with
  | .ok (i, _) => some i
  | .error _ => none

end Sys2Proof
end

