-- ==== Sys2Proof/Config.lean ====
section
/-! DEFINITION. The fixed sizes of CORE, the session parameters and their defaults, and the one free
value of the spec (spec/00_scope.md R6, R7, R8; 10_state.md R37; 60_exceptions.md R246). -/

namespace Sys2Proof

/-- The quirk configuration (00_scope.md R8): three booleans fixed at Reset. -/
structure Quirks where
  /-- `Q.shift_vy`: the two shift instructions shift VY instead of VX. -/
  shiftVy : Bool
  /-- `Q.jump_vx`: the offset jump adds VX instead of V0. -/
  jumpVx : Bool
  /-- `Q.inc_i`: block store and block load leave I at I + X + 1 instead of unchanged. -/
  incI : Bool
  deriving DecidableEq, Repr

/-- The two rates of a session (00_scope.md R7): CpuSteps and TimerTicks per second. -/
structure Rates where
  cpuHz : Rat
  timerHz : Rat
  deriving DecidableEq, Repr

namespace Config

/-- MEM_SIZE (00_scope.md R6). -/
abbrev memSize : Nat := 4096
/-- PROG_BASE (00_scope.md R6). -/
abbrev progBase : Nat := 0x200
/-- FONT_BASE (00_scope.md R6). -/
abbrev fontBase : Nat := 0x50
/-- FONT_SIZE (00_scope.md R6). -/
abbrev fontSize : Nat := 80
/-- STACK_DEPTH (00_scope.md R6). -/
abbrev stackDepth : Nat := 16
/-- DISP_W (00_scope.md R6). -/
abbrev dispW : Nat := 64
/-- DISP_H (00_scope.md R6). -/
abbrev dispH : Nat := 32
/-- ROM_MAX = 4096 - 0x200 (00_scope.md R6). -/
abbrev romMax : Nat := 3584

/-- The legacy quirks, all false: the default of QUIRKS (00_scope.md R8). -/
def legacy : Quirks := ⟨false, false, false⟩

/-- The reference rates 500 Hz and 60 Hz, the defaults of R7 (log 11). -/
def referenceRates : Rates := ⟨500, 60⟩

/-- The sixteen glyphs of the default font, one list of five bytes each (10_state.md R37).
PRESUMED by the spec (general knowledge, K2); log 2; unsafe. -/
def defaultGlyphs : List (List Byte) :=
  [[0xF0, 0x90, 0x90, 0x90, 0xF0], [0x20, 0x60, 0x20, 0x20, 0x70],
   [0xF0, 0x10, 0xF0, 0x80, 0xF0], [0xF0, 0x10, 0xF0, 0x10, 0xF0],
   [0x90, 0x90, 0xF0, 0x10, 0x10], [0xF0, 0x80, 0xF0, 0x10, 0xF0],
   [0xF0, 0x80, 0xF0, 0x90, 0xF0], [0xF0, 0x10, 0x20, 0x40, 0x40]] ++
  [[0xF0, 0x90, 0xF0, 0x90, 0xF0], [0xF0, 0x90, 0xF0, 0x10, 0xF0],
   [0xF0, 0x90, 0xF0, 0x90, 0x90], [0xE0, 0x90, 0xE0, 0x90, 0xE0],
   [0xF0, 0x80, 0x80, 0x80, 0xF0], [0xE0, 0x90, 0x90, 0x90, 0xE0],
   [0xF0, 0x80, 0xF0, 0x80, 0xF0], [0xF0, 0x80, 0xF0, 0x80, 0x80]]

/-- The default FONT: 80 bytes, glyph d at 5 * d (10_state.md R37). -/
def defaultFont : Vector Byte 80 := ⟨defaultGlyphs.flatten.toArray, by decide⟩

/-- The byte on the port `rnd` at the n-th executed RND when the host's list `rndIn` names none:
unconstrained (60_exceptions.md R246, 93_implementation_defined.md U8). A free value, without a body;
log 9; safe. -/
opaque rand8 : Nat → Byte

end Config
end Sys2Proof
end

