-- ==== Sys2Proof/Machine/State.lean ====
section
/-! DEFINITION. The state of CORE as plain data (spec/10_state.md R20 to R41), the events of
spec/00_scope.md R9, the fault kinds of spec/60_exceptions.md R221, and the state after reset (R43). -/

namespace Sys2Proof.Machine

/-- The fault kinds 1 to 7 of 60_exceptions.md R221. The spec describes what a fault does (R222), so
an instruction that raises one TAKES it: exec answers a next state whose register FAULT holds the
kind. No outcome of step or exec is Host.Outcome.fault (log 4). -/
inductive Fault where
  /-- Code 1. Raised by CALL when SP = 16 (R221; 10_state.md R30). Safe: the spec's own fault. -/
  | stackOverflow
  /-- Code 2. Raised by RET when SP = 0 (R221; 10_state.md R31). Safe: the spec's own fault. -/
  | stackUnderflow
  /-- Code 3. Raised by the fetch of every CpuStep when PC > 4094 (R221; 20_memory.md R61). Safe. -/
  | fetchOutOfBounds
  /-- Code 4. Raised by Reset when the ROM is too long or unreadable (R221; 70_reset_and_hazards.md
  R265). Safe. -/
  | loadFailure
  /-- Code 5. Raised by LD B and LD [I] at a store address above 4095 (R221; 20_memory.md R63).
  Safe. -/
  | memWriteOutOfBounds
  /-- Code 6. Raised by DRW and LD Vx,[I] at a load address above 4095 (R221; 20_memory.md R62).
  Safe. -/
  | memReadOutOfBounds
  /-- Code 7. Raised by SKP and SKNP when VX > 15 (R221; 44_keys_timers.md R200, R201). Safe. -/
  | keyIndexOutOfRange
  deriving DecidableEq, Repr

/-- Why the model gives a step no meaning. -/
inductive Refusal where
  /-- An instruction that has no meaning yet; raised by exec's refused arms only (there is none). Safe. -/
  | notModelled (mnemonic : String)
  /-- The schedule holds a move the host is assumed never to make: a negative elapsed time or a rate
  that is not positive (60_exceptions.md R245; 00_scope.md R7). Raised by step, never by an
  instruction. Safe (log 10). -/
  | outsideHostContract
  deriving DecidableEq, Repr

/-- The three outcomes of a step, at this machine's types. -/
abbrev Outcome (σ : Type) := Host.Outcome σ Fault Refusal

/-- Main memory: the bytes that differ from the reset contents, addresses strictly rising
(10_state.md R32; the form is `Memory.wf` of Machine/Memory.lean; log 3). -/
abbrev Memory := List Host.Cell

/-- The display buffer, 32 rows of 64 pixels (10_state.md R33): row y, then column x. -/
abbrev Display := Vector (Vector Bool 64) 32

/-- The key-wait latch WAIT (10_state.md R38). -/
structure KeyWait where
  /-- WAIT.valid: an FX0A has seen `key` down and waits for it to go up. -/
  valid : Bool
  /-- WAIT.key. -/
  key : Ix16
  deriving DecidableEq, Repr

/-- The parameters of a session (00_scope.md R7; 70_reset_and_hazards.md R260, R266). -/
structure Session where
  /-- The ROM image; none when the host reports it unreadable (70_reset_and_hazards.md R260; log 19). -/
  rom : Option (List Byte)
  /-- FONT, 80 bytes (10_state.md R37). -/
  font : Vector Byte 80
  quirks : Quirks
  rates : Rates
  deriving DecidableEq, Repr

/-- The events of 00_scope.md R9: four atomic ones and the composite HostIteration. -/
inductive Event where
  /-- Reset(ROM, FONT, QUIRKS), 70_reset_and_hazards.md R260. -/
  | reset (p : Session)
  /-- KeySample(keys), 60_exceptions.md R244; bit k is key k. -/
  | keySample (keys : Word)
  /-- CpuStep, 60_exceptions.md R232. -/
  | cpuStep
  /-- TimerTick, 60_exceptions.md R237. -/
  | timerTick
  /-- HostIteration(dt, keys), 60_exceptions.md R240; dt in seconds. -/
  | hostIteration (dt : Rat) (keys : Word)
  deriving DecidableEq, Repr

end Sys2Proof.Machine

namespace Sys2Proof.Machine

/-- The state of CORE (10_state.md R20), the session's rates, and the model's own fields for the
host's side: `schedule` (log 8), `rndIn` and `rndCount` (log 9). -/
structure State where
  /-- V0 to VF (R21). -/
  v : Vector Byte 16
  /-- I (R25). -/
  i : Word
  /-- PC (R26). -/
  pc : Word
  /-- STACK[0..15] (R29); entries at or above SP are stale. -/
  stack : Vector Word 16
  /-- SP, the number of valid entries, 0 to 16 (R29). -/
  sp : Fin 17
  /-- MEM (R32). -/
  mem : Memory
  /-- Pix (R33). -/
  pix : Display
  /-- DT (R34). -/
  dt : Byte
  /-- ST (R34). -/
  st : Byte
  /-- Q (R35). -/
  quirks : Quirks
  /-- Key[0..15], true when down (R36). -/
  key : Vector Bool 16
  /-- WAIT (R38). -/
  wait : KeyWait
  /-- FAULT, none for code 0 (R39). -/
  fault : Option Fault
  /-- FAULT_PC (R39). -/
  faultPc : Word
  /-- CPU_ACC in seconds (R40). -/
  cpuAcc : Rat
  /-- TIMER_ACC in seconds (R40). -/
  timerAcc : Rat
  /-- CPU_HZ and TIMER_HZ of the session (00_scope.md R7). -/
  rates : Rates
  /-- The model's own: the host's events in store, the next one first; when empty, the next event is a
  CpuStep. -/
  schedule : List Event
  /-- The model's own: the bytes the host has put on the port `rnd`, the next one first. -/
  rndIn : List Byte
  /-- The model's own: how many random bytes have been taken. -/
  rndCount : Nat
  deriving DecidableEq, Repr

/-- The machine after Reset with an empty ROM, the default font, the legacy quirks and the reference
rates (10_state.md R43). Memory lists nothing: the font and the zeros are what an unlisted address
reads as (log 1, log 2, log 3). -/
def State.reset : State where
  v := Vector.replicate 16 0
  i := 0
  pc := 0x200
  stack := Vector.replicate 16 0
  sp := 0
  mem := []
  pix := Vector.replicate 32 (Vector.replicate 64 false)
  dt := 0
  st := 0
  quirks := Config.legacy
  key := Vector.replicate 16 false
  wait := ⟨false, 0⟩
  fault := none
  faultPc := 0
  cpuAcc := 0
  timerAcc := 0
  rates := Config.referenceRates
  schedule := []
  rndIn := []
  rndCount := 0

end Sys2Proof.Machine
end

