-- ==== Sys2Proof/Machine/Memory.lean ====
section
/-! DEFINITION. Main memory: the canonical form, reading and writing one byte, the loader's block
write (spec/10_state.md R32, R43; 20_memory.md R66, R69, R70). -/

namespace Sys2Proof.Machine

/-- What an address that memory does not list reads as: the reset contents, the default font at 0x50
to 0x9F and 0 elsewhere (10_state.md R37, R43; log 2, log 3). -/
def Memory.unlisted (a : Nat) : Byte :=
  if Config.fontBase ≤ a ∧ a < Config.fontBase + Config.fontSize then
    Config.defaultGlyphs.flatten.getD (a - Config.fontBase) 0
  else 0

/-- The canonical form: addresses strictly rising and below 4096, no entry equal to what an unlisted
address reads as. -/
abbrev Memory.wf (m : Memory) : Prop :=
  m.Pairwise (fun p q => p.1 < q.1) ∧ ∀ c ∈ m, c.1 < Config.memSize ∧ c.2 ≠ Memory.unlisted c.1

/-- MEM[a] (10_state.md R32). -/
def Memory.read : Memory → Nat → Byte
  | [], a => Memory.unlisted a
  | (a', b) :: rest, a => if a = a' then b else Memory.read rest a

/-- The list with the entry (a, b), in its place. -/
def Memory.put (a : Nat) (b : Byte) : Memory → Memory
  | [] => [(a, b)]
  | (a', b') :: rest =>
    if a < a' then (a, b) :: (a', b') :: rest
    else if a = a' then (a, b) :: rest
    else (a', b') :: Memory.put a b rest

/-- The list without an entry for a. -/
def Memory.erase (a : Nat) (m : Memory) : Memory := m.filter (fun c => c.1 != a)

/-- MEM[a] <- b, keeping the canonical form. -/
def Memory.write (m : Memory) (a : Nat) (b : Byte) : Memory :=
  if b = Memory.unlisted a then m.erase a else m.put a b

/-- Writes a list of bytes at a, a + 1, ... -/
def Memory.writeBytes (a : Nat) : List Byte → Memory → Memory
  | [], m => m
  | b :: bs, m => Memory.writeBytes (a + 1) bs (m.write a b)

/-- write_block(start, bytes), all or nothing (20_memory.md R69); none reports failure. -/
def Memory.writeBlock (start : Nat) (bytes : List Byte) (m : Memory) : Option Memory :=
  if start + bytes.length > Config.memSize then none else some (Memory.writeBytes start bytes m)

end Sys2Proof.Machine
end

