-- ==== Sys2Proof/Machine/Ops.lean ====
section
/-! DEFINITION. The shared operations: taking a fault, registers, stack, memory access, program
counter, random input, pixels (spec/00_scope.md R11; 10_state.md R21, R30, R31; 20_memory.md R62,
R63; 60_exceptions.md R222, R246). -/

namespace Sys2Proof.Machine

/-- Where an event stands after a statement of its pseudocode (00_scope.md R11). -/
inductive Flow where
  /-- The event goes on with this state. -/
  | going (s : State)
  /-- A fault was raised: the event has stopped and this is its last state. -/
  | raised (s : State)
  deriving DecidableEq, Repr

/-- The next statement: it runs unless a fault was raised ("no statement after it runs", R11). -/
def Flow.andThen (f : Flow) (next : State → Flow) : Flow :=
  match f with
  | .going s => next s
  | .raised s => .raised s

/-- The end of the execute phase. A fault taken is a next state, as 60_exceptions.md R222 describes
it (log 4). -/
def Flow.outcome : Flow → Outcome State
  | .going s => .next s
  | .raised s => .next s

/-- `raise F` (60_exceptions.md R222): FAULT <- F, FAULT_PC <- PC as it stands. There is no return from
it (R230). -/
def raise (f : Fault) (s : State) : State := { s with fault := some f, faultPc := s.pc }

/-! ### General registers (10_state.md R21) -/

/-- V[x]. -/
def State.reg (s : State) (x : Ix16) : Byte := s.v[x.val]

/-- V[x] <- b. -/
def State.setReg (s : State) (x : Ix16) (b : Byte) : State := { s with v := s.v.set x.val b }

/-! ### Program counter (10_state.md R26; 40_control_flow.md R128) -/

/-- PC <- target. -/
def State.setPc (s : State) (target : Word) : State := { s with pc := target }

/-- A taken skip adds 2 to PC; an untaken one does nothing (40_control_flow.md R128). -/
def skipIf (c : Bool) (s : State) : State := s.setPc (if c then s.pc + 2 else s.pc)

/-- PC <- PC - 2: the instruction runs again at the next step (44_keys_timers.md R203). -/
def retry (s : State) : State := s.setPc (s.pc - 2)

/-! ### Call stack (10_state.md R30, R31) -/

/-- Push(v) (R30). -/
def push (v : Word) (s : State) : Flow :=
  if h : s.sp.val < 16 then
    .going { s with stack := s.stack.set s.sp.val v, sp := ⟨s.sp.val + 1, by omega⟩ }
  else .raised (raise .stackOverflow s)

/-- Pop() (R31), the popped value handed to the rest of the instruction. -/
def pop (use : Word → State → Flow) (s : State) : Flow :=
  if h : 0 < s.sp.val then
    use s.stack[s.sp.val - 1] { s with sp := ⟨s.sp.val - 1, by omega⟩ }
  else .raised (raise .stackUnderflow s)

/-! ### Data memory (20_memory.md R62, R63) -/

/-- MemRead(addr, 1) (R62), the byte handed to the rest of the instruction. -/
def memRead (addr : Nat) (use : Byte → State → Flow) (s : State) : Flow :=
  if addr > 4095 then .raised (raise .memReadOutOfBounds s) else use (s.mem.read addr) s

/-- MemWrite(addr, 1, b) (R63). -/
def memWrite (addr : Nat) (b : Byte) (s : State) : Flow :=
  if addr > 4095 then .raised (raise .memWriteOutOfBounds s)
  else .going { s with mem := s.mem.write addr b }

/-! ### Random input (60_exceptions.md R246) -/

/-- The byte on the port `rnd`: the next one the host has listed, else a free value (log 9). -/
def State.rndByte (s : State) : Byte :=
  match s.rndIn with
  | b :: _ => b
  | [] => Config.rand8 s.rndCount

/-- Each executed RND takes one byte (R246). -/
def State.takeRnd (s : State) : State :=
  { s with rndIn := s.rndIn.tail, rndCount := s.rndCount + 1 }

/-! ### Key vector (44_keys_timers.md R200, R203) -/

/-- Key[k] (10_state.md R36). -/
def State.keyDown (s : State) (k : Ix16) : Bool := s.key[k.val]

/-- A register's value used as a key index: above 15 it faults (R200, R201). -/
def withKey (k : Byte) (use : Ix16 → State → Flow) (s : State) : Flow :=
  if h : k.toNat ≤ 15 then use ⟨k.toNat, by omega⟩ s else .raised (raise .keyIndexOutOfRange s)

/-- The smallest k with Key[k] = 1 (R203). -/
def State.lowestKeyDown (s : State) : Option Ix16 := (List.finRange 16).find? s.keyDown

/-! ### Display (10_state.md R33; 43_random_display.md R181, R182) -/

/-- Pix[y][x]. -/
def Display.pixel (d : Display) (y : Fin 32) (x : Fin 64) : Bool := d[y.val][x.val]

/-- Pix[y][x] <- b. -/
def Display.setPixel (d : Display) (y : Fin 32) (x : Fin 64) (b : Bool) : Display :=
  d.set y.val (d[y.val].set x.val b)

/-- All pixels clear. -/
def Display.clear : Display := Vector.replicate 32 (Vector.replicate 64 false)

/-- One sprite bit at row y, column x (R182): a set bit on the screen inverts its pixel, and a pixel that
was set raises the collision mark c. Columns past the right edge are skipped. -/
def drawBit (y : Fin 32) (x : Nat) (on : Bool) (acc : Display × Bool) : Display × Bool :=
  if h : x ≤ 63 then
    if on then
      let old := acc.1.pixel y ⟨x, by omega⟩
      (acc.1.setPixel y ⟨x, by omega⟩ (old ^^ true), acc.2 || old)
    else acc
  else acc

/-- One sprite row: column j of the sprite is bit 7 - j of the byte (R182; log 15). -/
def drawByte (y : Fin 32) (x0 : Nat) (b : Byte) (acc : Display × Bool) : Display × Bool :=
  (List.range 8).foldl (fun acc j => drawBit y (x0 + j) (b.getLsbD (7 - j)) acc) acc

/-- Row r of a sprite at (x0, y0) whose bytes are at base, base + 1, ...: rows past the bottom are
skipped (R182). -/
def drawRow (m : Memory) (base x0 y0 r : Nat) (acc : Display × Bool) : Display × Bool :=
  if h : y0 + r ≤ 31 then drawByte ⟨y0 + r, by omega⟩ x0 (m.read (base + r)) acc else acc

/-- The N rows of a sprite (R182); the second component is the collision mark. -/
def drawSprite (m : Memory) (base x0 y0 n : Nat) (d : Display) : Display × Bool :=
  (List.range n).foldl (fun acc r => drawRow m base x0 y0 r acc) (d, false)

end Sys2Proof.Machine
end

