-- ==== Sys2Proof/Machine/Flags.lean ====
section
/-! DEFINITION. Every flag computation of the instruction set: the seven flag writers of
spec/10_state.md R24, each flag from the operands as they were before the instruction (R23). -/

namespace Sys2Proof.Machine

/-- A flag is the whole byte 0 or 1 (10_state.md R22). -/
def flagByte (c : Bool) : Byte := if c then 1 else 0

/-- VF <- flag, after the result was written (10_state.md R23; 41_arith_logic.md R152; log 6). -/
def State.setFlag (s : State) (c : Bool) : State := s.setReg VF (flagByte c)

/-- Carry of VX + VY (41_arith_logic.md R146). -/
def carries (a b : Byte) : Bool := 255 < a.toNat + b.toNat

/-- No borrow in minuend - subtrahend (41_arith_logic.md R147, R149). -/
def noBorrow (minuend subtrahend : Byte) : Bool := subtrahend.toNat ≤ minuend.toNat

/-- The bit SHR shifts out, bit 0 of the source (41_arith_logic.md R148). -/
def lowBit (b : Byte) : Bool := b.getLsbD 0

/-- The bit SHL shifts out, bit 7 of the source (41_arith_logic.md R150). -/
def highBit (b : Byte) : Bool := b.getLsbD 7

/-- The unwrapped sum I + VX exceeds the 12-bit range (42_index_memory.md R161). -/
def beyondAddr12 (i : Word) (b : Byte) : Bool := 0x0FFF < i.toNat + b.toNat

/-- The result to V[x], then the flag to VF (41_arith_logic.md R152). -/
def setResult (x : Ix16) (result : Byte) (flag : Bool) (s : State) : State :=
  (s.setReg x result).setFlag flag

end Sys2Proof.Machine
end

