-- ==== Sys2Proof/Machine/Operands.lean ====
section
/-! DEFINITION. Every operand form of the instruction set (spec/30_encoding.md R93;
42_index_memory.md R162, R163, R166; 41_arith_logic.md R148; 40_control_flow.md R129). -/

namespace Sys2Proof.Machine

/-- NNN zero-extended to the 16 bits of PC or I (30_encoding.md R93). -/
def addrWord (nnn : Addr12) : Word := nnn.zeroExtend 16

/-- X of a BNNN word: bits 11:8 of NNN (30_encoding.md R92). -/
def highNibble (nnn : Addr12) : Ix16 := (nnn.extractLsb' 8 4).toFin

/-- The offset register of BNNN: V[X] under Q.jump_vx, else V[0] (40_control_flow.md R129). -/
def jumpOffset (nnn : Addr12) (s : State) : Byte :=
  if s.quirks.jumpVx then s.reg (highNibble nnn) else s.reg 0

/-- NNN + offset, not reduced modulo 4096 (40_control_flow.md R129; log 16). -/
def jumpTarget (nnn : Addr12) (s : State) : Word :=
  addrWord nnn + (jumpOffset nnn s).zeroExtend 16

/-- The source operand of a shift: V[Y] under Q.shift_vy, else V[X] (41_arith_logic.md R148, R150). -/
def shiftSource (x y : Ix16) (s : State) : Byte :=
  if s.quirks.shiftVy then s.reg y else s.reg x

/-- The data address I + k, an unbounded integer (20_memory.md R68; 42_index_memory.md R166). -/
def dataAddr (s : State) (k : Nat) : Nat := s.i.toNat + k

/-- The address of the glyph of a value's low nibble (42_index_memory.md R162). -/
def glyphAddr (b : Byte) : Word := 0x50 + 5 * (b.extractLsb' 0 4).zeroExtend 16

/-- The hundreds digit of a byte (42_index_memory.md R163). -/
def hundreds (b : Byte) : Byte := BitVec.ofNat 8 (b.toNat / 100)
/-- The tens digit of a byte (42_index_memory.md R163). -/
def tens (b : Byte) : Byte := BitVec.ofNat 8 (b.toNat / 10 % 10)
/-- The ones digit of a byte (42_index_memory.md R163). -/
def ones (b : Byte) : Byte := BitVec.ofNat 8 (b.toNat % 10)

/-- The registers a block instruction moves: V[0] to V[X] in rising order (30_encoding.md R93). -/
def regsUpTo (x : Ix16) : List Ix16 := (List.finRange 16).filter (fun k => k ≤ x)

/-- The address of register k in a block move: I itself when I moves with the transfer, else I + k
(42_index_memory.md R164, R165). -/
def blockAddr (k : Ix16) (s : State) : Nat :=
  if s.quirks.incI then dataAddr s 0 else dataAddr s k.val

/-- I <- I + 1 under Q.inc_i (42_index_memory.md R164, R165). -/
def blockStep (s : State) : State := { s with i := if s.quirks.incI then s.i + 1 else s.i }

/-- The sprite's left column, V[X] mod 64 (43_random_display.md R182). -/
def spriteCol (b : Byte) : Nat := b.toNat % 64
/-- The sprite's top row, V[Y] mod 32 (43_random_display.md R182). -/
def spriteRow (b : Byte) : Nat := b.toNat % 32

end Sys2Proof.Machine
end

