-- ==== Sys2Proof/Machine/ArithLogic.lean ====
section
/-! DEFINITION. Register load, arithmetic and logic instructions (spec/41_arith_logic.md). -/

namespace Sys2Proof.Machine

/-- LD Vx, NN (R140). -/
def execLdImm (x : Ix16) (nn : Byte) (s : State) : Outcome State := .next (s.setReg x nn)

/-- ADD Vx, NN (R141): wraps, no flag. -/
def execAddImm (x : Ix16) (nn : Byte) (s : State) : Outcome State := .next (s.setReg x (s.reg x + nn))

/-- LD Vx, Vy (R142). -/
def execLdReg (x y : Ix16) (s : State) : Outcome State := .next (s.setReg x (s.reg y))

/-- OR Vx, Vy (R143): no flag. -/
def execOr (x y : Ix16) (s : State) : Outcome State := .next (s.setReg x (s.reg x ||| s.reg y))

/-- AND Vx, Vy (R144): no flag. -/
def execAnd (x y : Ix16) (s : State) : Outcome State := .next (s.setReg x (s.reg x &&& s.reg y))

/-- XOR Vx, Vy (R145): no flag. -/
def execXor (x y : Ix16) (s : State) : Outcome State := .next (s.setReg x (s.reg x ^^^ s.reg y))

/-- ADD Vx, Vy (R146): VF = carry. -/
def execAddReg (x y : Ix16) (s : State) : Outcome State :=
  .next (setResult x (s.reg x + s.reg y) (carries (s.reg x) (s.reg y)) s)

/-- SUB Vx, Vy (R147): VF = no borrow. -/
def execSub (x y : Ix16) (s : State) : Outcome State :=
  .next (setResult x (s.reg x - s.reg y) (noBorrow (s.reg x) (s.reg y)) s)

/-- SHR Vx {, Vy} (R148): VF = bit 0 of the source. -/
def execShr (x y : Ix16) (s : State) : Outcome State :=
  .next (setResult x (shiftSource x y s >>> 1) (lowBit (shiftSource x y s)) s)

/-- SUBN Vx, Vy (R149): VF = no borrow. -/
def execSubn (x y : Ix16) (s : State) : Outcome State :=
  .next (setResult x (s.reg y - s.reg x) (noBorrow (s.reg y) (s.reg x)) s)

/-- SHL Vx {, Vy} (R150): VF = bit 7 of the source. -/
def execShl (x y : Ix16) (s : State) : Outcome State :=
  .next (setResult x (shiftSource x y s <<< 1) (highBit (shiftSource x y s)) s)

end Sys2Proof.Machine
end

