-- ==== Sys2Proof/Machine/ControlFlow.lean ====
section
/-! DEFINITION. The control-flow instructions (spec/40_control_flow.md). While an instruction executes,
PC already holds A + 2 (spec/10_state.md R26). -/

namespace Sys2Proof.Machine

/-- NOP (R120): nothing but the PC advance of the fetch. -/
def execNop (_w : Word) (s : State) : Outcome State := .next s

/-- RET (R121): PC <- Pop(). -/
def execRet (s : State) : Outcome State := (pop (fun a s => .going (s.setPc a)) s).outcome

/-- JP NNN (R122). -/
def execJp (nnn : Addr12) (s : State) : Outcome State := .next (s.setPc (addrWord nnn))

/-- CALL NNN (R123): Push(PC), then PC <- NNN. -/
def execCall (nnn : Addr12) (s : State) : Outcome State :=
  ((push s.pc s).andThen fun s => .going (s.setPc (addrWord nnn))).outcome

/-- SE Vx, NN (R124). -/
def execSeImm (x : Ix16) (nn : Byte) (s : State) : Outcome State := .next (skipIf (s.reg x == nn) s)

/-- SNE Vx, NN (R125). -/
def execSneImm (x : Ix16) (nn : Byte) (s : State) : Outcome State := .next (skipIf (s.reg x != nn) s)

/-- SE Vx, Vy (R126). -/
def execSeReg (x y : Ix16) (s : State) : Outcome State := .next (skipIf (s.reg x == s.reg y) s)

/-- SNE Vx, Vy (R127). -/
def execSneReg (x y : Ix16) (s : State) : Outcome State := .next (skipIf (s.reg x != s.reg y) s)

/-- JP V0, NNN (R129). -/
def execJpV0 (nnn : Addr12) (s : State) : Outcome State := .next (s.setPc (jumpTarget nnn s))

end Sys2Proof.Machine
end

