-- ==== Sys2Proof/Machine/IndexMemory.lean ====
section
/-! DEFINITION. Index register and memory instructions (spec/42_index_memory.md). -/

namespace Sys2Proof.Machine

/-- LD I, NNN (R160). -/
def execLdI (nnn : Addr12) (s : State) : Outcome State := .next { s with i := addrWord nnn }

/-- ADD I, Vx (R161): I wraps at 65536, VF looks at the unwrapped sum. -/
def execAddI (x : Ix16) (s : State) : Outcome State :=
  .next (({ s with i := s.i + (s.reg x).zeroExtend 16 } : State).setFlag
    (beyondAddr12 s.i (s.reg x)))

/-- LD F, Vx (R162). -/
def execLdF (x : Ix16) (s : State) : Outcome State := .next { s with i := glyphAddr (s.reg x) }

/-- LD B, Vx (R163): hundreds, tens, ones, at I, I + 1, I + 2 in this order. -/
def execLdB (x : Ix16) (s : State) : Outcome State :=
  (((memWrite (dataAddr s 0) (hundreds (s.reg x)) s).andThen
      (memWrite (dataAddr s 1) (tens (s.reg x)))).andThen
      (memWrite (dataAddr s 2) (ones (s.reg x)))).outcome

/-- The stores of a block store, register by register (R164). -/
def blockStore : List Ix16 → State → Flow
  | [], s => .going s
  | k :: ks, s =>
    (memWrite (blockAddr k s) (s.reg k) s).andThen fun s => blockStore ks (blockStep s)

/-- LD [I], Vx (R164). -/
def execStoreRegs (x : Ix16) (s : State) : Outcome State := (blockStore (regsUpTo x) s).outcome

/-- The loads of a block load, register by register (R165). -/
def blockLoad : List Ix16 → State → Flow
  | [], s => .going s
  | k :: ks, s => memRead (blockAddr k s) (fun b s => blockLoad ks (blockStep (s.setReg k b))) s

/-- LD Vx, [I] (R165). -/
def execLoadRegs (x : Ix16) (s : State) : Outcome State := (blockLoad (regsUpTo x) s).outcome

end Sys2Proof.Machine
end

