-- ==== Sys2Proof/Machine/KeysTimers.lean ====
section
/-! DEFINITION. Key and timer instructions (spec/44_keys_timers.md). -/

namespace Sys2Proof.Machine

/-- SKP Vx (R200). -/
def execSkp (x : Ix16) (s : State) : Outcome State :=
  (withKey (s.reg x) (fun k s => .going (skipIf (s.keyDown k) s)) s).outcome

/-- SKNP Vx (R201). -/
def execSknp (x : Ix16) (s : State) : Outcome State :=
  (withKey (s.reg x) (fun k s => .going (skipIf (!s.keyDown k) s)) s).outcome

/-- LD Vx, DT (R202). -/
def execLdVxDT (x : Ix16) (s : State) : Outcome State := .next (s.setReg x s.dt)

/-- LD DT, Vx (R204). -/
def execLdDT (x : Ix16) (s : State) : Outcome State := .next { s with dt := s.reg x }

/-- LD ST, Vx (R205). -/
def execLdST (x : Ix16) (s : State) : Outcome State := .next { s with st := s.reg x }

/-- LD Vx, K while no key is latched (R203): latch the lowest key that is down, if any, and retry. -/
def awaitPress (s : State) : State :=
  match s.lowestKeyDown with
  | some k => retry { s with wait := ⟨true, k⟩ }
  | none => retry s

/-- LD Vx, K with a key latched (R203): finish when that key is up, else retry. -/
def awaitRelease (x : Ix16) (s : State) : State :=
  if s.keyDown s.wait.key then retry s
  else ({ s with wait := ⟨false, s.wait.key⟩ } : State).setReg x (BitVec.ofNat 8 s.wait.key.val)

/-- LD Vx, K (R203). -/
def execLdVxK (x : Ix16) (s : State) : Outcome State :=
  .next (if s.wait.valid then awaitRelease x s else awaitPress s)

end Sys2Proof.Machine
end

