-- ==== Sys2Proof/Machine/RandomDisplay.lean ====
section
/-! DEFINITION. Random number and display instructions (spec/43_random_display.md). -/

namespace Sys2Proof.Machine

/-- RND Vx, NN (R180): one byte of the port `rnd`, masked. -/
def execRnd (x : Ix16) (nn : Byte) (s : State) : Outcome State :=
  .next (s.takeRnd.setReg x (s.rndByte &&& nn))

/-- CLS (R181). -/
def execCls (s : State) : Outcome State := .next { s with pix := Display.clear }

/-- Some sprite byte lies above address 4095 (R182); never so when N = 0. -/
def spriteOutside (n : Fin 16) (s : State) : Bool := 1 ≤ n.val && 4095 < dataAddr s n.val - 1

/-- DRW Vx, Vy, N (R182): all N addresses are checked before any pixel changes; VF = collision. -/
def execDrw (x y : Ix16) (n : Fin 16) (s : State) : Outcome State :=
  if spriteOutside n s then (Flow.raised (raise .memReadOutOfBounds s)).outcome
  else
    let d := drawSprite s.mem (dataAddr s 0) (spriteCol (s.reg x)) (spriteRow (s.reg y)) n.val s.pix
    .next (({ s with pix := d.1 } : State).setFlag d.2)

end Sys2Proof.Machine
end

