-- ==== Sys2Proof/Machine/Cpu.lean ====
section
/-! DEFINITION. The instruction fetch and the CpuStep event (spec/20_memory.md R61, R64;
60_exceptions.md R232), and placing a word where the next fetch finds it. -/

namespace Sys2Proof.Machine

/-- The word at an address: MEM[a] || MEM[a + 1] (20_memory.md R61, R64). -/
def Memory.word (m : Memory) (a : Nat) : Word := joinBytes (m.read a) (m.read (a + 1))

/-- Fetch16(PC) (20_memory.md R61): faults with PC unadvanced when PC > 4094. -/
def fetch16 (use : Word → State → Outcome State) (s : State) : Outcome State :=
  if s.pc.toNat > 4094 then (Flow.raised (raise .fetchOutOfBounds s)).outcome
  else use (s.mem.word s.pc.toNat) (s.setPc (s.pc + 2))

/-- CpuStep() (60_exceptions.md R232); a faulted CORE does nothing (R223). -/
def cpuStep (s : State) : Outcome State :=
  if s.fault = none then fetch16 (fun w s => exec (decodeWord w) s) s else .next s

/-- The state with a word placed where its next step fetches: no host event in store, no fault, PC at a
fetchable address (0x200 where it was not), and the two bytes at PC, high byte first (log 17). -/
def placeWord (w : Word) (s : State) : State :=
  let pc : Word := if s.pc.toNat > 4094 then 0x200 else s.pc
  { s with
    schedule := []
    fault := none
    pc := pc
    mem := (s.mem.write pc.toNat (hiByte w)).write (pc.toNat + 1) (loByte w) }

end Sys2Proof.Machine
end

