-- ==== Sys2Proof/Machine/Scheduler.lean ====
section
/-! DEFINITION. The events besides CpuStep: Reset, KeySample, TimerTick and the composite HostIteration
(spec/00_scope.md R9; 60_exceptions.md R223, R237, R240, R244, R245; 70_reset_and_hazards.md R260). -/

namespace Sys2Proof.Machine

/-! ### Reset (70_reset_and_hazards.md R260) -/

/-- Every piece of state at its reset value, Q and the rates from the session; the model's own fields,
which stand for the host, stay (log 19). -/
def clearAll (p : Session) (s : State) : State :=
  { State.reset with
    quirks := p.quirks
    rates := p.rates
    schedule := s.schedule
    rndIn := s.rndIn
    rndCount := s.rndCount }

/-- The ROM part of the load (R260, R264): unreadable or too long is LoadFailure (R265). -/
def loadRom (rom : Option (List Byte)) (s : State) : Flow :=
  match rom with
  | none => .raised (raise .loadFailure s)
  | some bytes =>
    if bytes.length > Config.romMax then .raised (raise .loadFailure s)
    else match s.mem.writeBlock Config.progBase bytes with
      | none => .raised (raise .loadFailure s)
      | some m => .going { s with mem := m }

/-- The font part of the load (R260, R263). -/
def loadFont (font : Vector Byte 80) (s : State) : Flow :=
  match s.mem.writeBlock Config.fontBase font.toList with
  | none => .raised (raise .loadFailure s)
  | some m => .going { s with mem := m }

/-- Reset(ROM, FONT, QUIRKS) (R260). -/
def resetEvent (p : Session) (s : State) : Outcome State :=
  ((loadFont p.font (clearAll p s)).andThen (loadRom p.rom)).outcome

/-! ### KeySample and TimerTick (60_exceptions.md R237, R244) -/

/-- KeySample(keys): Key[k] <- keys[k] (R244); no effect on a faulted CORE. -/
def keySample (keys : Word) (s : State) : State :=
  if s.fault = none then { s with key := Vector.ofFn fun k => keys.getLsbD k.val } else s

/-- One timer's tick: it saturates at 0 (R237). -/
def countDown (t : Byte) : Byte := if t = 0 then 0 else t - 1

/-- TimerTick() (R237); no effect on a faulted CORE. -/
def timerTick (s : State) : State :=
  if s.fault = none then { s with dt := countDown s.dt, st := countDown s.st } else s

/-! ### HostIteration (60_exceptions.md R240) -/

/-- How often a period of 1 / hz fits into the accumulated time: the most a loop of R240 can turn
(log 12). -/
def periodsIn (acc hz : Rat) : Nat := (acc * hz).floor.toNat

/-- `while CPU_ACC ≥ Tc and FAULT = 0` (R240), at most n turns. -/
def cpuLoop : Nat → State → Outcome State
  | 0, s => .next s
  | n + 1, s =>
    if 1 / s.rates.cpuHz ≤ s.cpuAcc ∧ s.fault = none then
      match cpuStep { s with cpuAcc := s.cpuAcc - 1 / s.rates.cpuHz } with
      | .next t => cpuLoop n t
      | .fault f => .fault f
      | .refused r => .refused r
    else .next s

/-- `while TIMER_ACC ≥ Tt` (R240), at most n turns. -/
def timerLoop : Nat → State → State
  | 0, s => s
  | n + 1, s =>
    if 1 / s.rates.timerHz ≤ s.timerAcc then
      timerLoop n (timerTick { s with timerAcc := s.timerAcc - 1 / s.rates.timerHz })
    else s

/-- The CPU part of an iteration: CPU_ACC <- CPU_ACC + dt, then all due CpuSteps. -/
def cpuPart (dt : Rat) (s : State) : Outcome State :=
  cpuLoop (periodsIn (s.cpuAcc + dt) s.rates.cpuHz) { s with cpuAcc := s.cpuAcc + dt }

/-- The timer part of an iteration: TIMER_ACC <- TIMER_ACC + dt, then all due TimerTicks. -/
def timerPart (dt : Rat) (s : State) : State :=
  timerLoop (periodsIn (s.timerAcc + dt) s.rates.timerHz) { s with timerAcc := s.timerAcc + dt }

/-- HostIteration(dt, keys) (R240): key sample, due CpuSteps, then due TimerTicks unless a step
faulted. -/
def hostIteration (dt : Rat) (keys : Word) (s : State) : Outcome State :=
  if s.fault = none then
    match cpuPart dt (keySample keys s) with
    | .next t => if t.fault = none then .next (timerPart dt t) else .next t
    | .fault f => .fault f
    | .refused r => .refused r
  else .next s

/-! ### One event -/

/-- The host's duties that an event can break (60_exceptions.md R245; 00_scope.md R7): elapsed time is
not negative and rates are positive (log 10). -/
def Event.legal : Event → Bool
  | .reset p => decide (0 < p.rates.cpuHz) && decide (0 < p.rates.timerHz)
  | .hostIteration dt _ => decide (0 ≤ dt)
  | .keySample _ | .cpuStep | .timerTick => true

/-- Performs one event (00_scope.md R9). -/
def perform (e : Event) (s : State) : Outcome State :=
  if e.legal then
    match e with
    | .reset p => resetEvent p s
    | .keySample keys => .next (keySample keys s)
    | .cpuStep => cpuStep s
    | .timerTick => .next (timerTick s)
    | .hostIteration dt keys => hostIteration dt keys s
  else .refused .outsideHostContract

/-- The next event: the first the host has in store, else a CpuStep (log 8). -/
def nextEvent (s : State) : Outcome State :=
  match s.schedule with
  | [] => cpuStep s
  | e :: rest => perform e { s with schedule := rest }

end Sys2Proof.Machine
end

