-- ==== Sys2Proof/Machine/Step.lean ====
section
/-! DEFINITION. One step of the machine: the next event (spec/00_scope.md R9; 60_exceptions.md R232). -/

namespace Sys2Proof.Machine

/-- One step: the next event of the host's schedule, or a CpuStep when it is empty (log 8). -/
def step (s : State) : Host.Outcome State Fault Refusal := nextEvent s

/-- The state with the table word w placed where step fetches its next instruction (log 17). -/
def State.withFetchWord (s : State) (nbits w : Nat) : State := placeWord (tableWord nbits w) s

end Sys2Proof.Machine
end

