-- ==== Sys2Proof/Safety.lean ====
section
/-! DEFINITION. What counts as a safe run, the terms statements use, and the invariant of the machine
(spec/60_exceptions.md R223; 70_reset_and_hazards.md R276; 10_state.md R28, R29, R41). -/

namespace Sys2Proof.Machine

/-- No fault is recorded: CORE is running (60_exceptions.md R223). -/
abbrev State.running (s : State) : Prop := s.fault = none

/-- The next step is a CpuStep that executes an instruction: nothing is in store, no fault is recorded and
both bytes at PC exist (60_exceptions.md R232; 20_memory.md R61). -/
abbrev State.canFetch (s : State) : Prop :=
  s.schedule = [] ∧ s.running ∧ s.pc.toNat ≤ 4094

/-- The instruction word the next CpuStep fetches (20_memory.md R61). -/
def State.nextWord (s : State) : Word := s.mem.word s.pc.toNat

/-- The program has stopped: PC holds the address of a jump to itself (70_reset_and_hazards.md R276), in a
running state. R276's definition does not name FAULT; that a faulted state never counts as stopped is the
model's reading of R276 with 60_exceptions.md R223, DEDUCED (log 21). -/
def State.halted (s : State) : Prop :=
  s.running ∧ s.pc.toNat ≤ 4094 ∧ ∃ nnn : Addr12, decodeWord s.nextWord = .jp nnn ∧ addrWord nnn = s.pc

/-- A run of n steps that meets neither a fault nor a refusal: every state of it is running. -/
def SafeFor : Nat → State → Prop
  | 0, s => s.running
  | n + 1, s => s.running ∧ ∃ t, step s = .next t ∧ SafeFor n t

/-- The invariant of the machine: memory is canonical, PC and every stack entry stay in the range of
10_state.md R28, rates are positive, the accumulators
are not negative and, while no fault is recorded, below one period (R41), and FAULT_PC is 0 until a
fault is recorded (R39). -/
structure State.Inv (s : State) : Prop where
  mem_wf : s.mem.wf
  pc_range : s.pc.toNat ≤ 0x10FE
  stack_range : ∀ k : Fin 16, s.stack[k.val].toNat ≤ 4096
  cpuHz_pos : 0 < s.rates.cpuHz
  timerHz_pos : 0 < s.rates.timerHz
  cpuAcc_nonneg : 0 ≤ s.cpuAcc
  timerAcc_nonneg : 0 ≤ s.timerAcc
  cpuAcc_below : s.fault = none → s.cpuAcc < 1 / s.rates.cpuHz
  timerAcc_below : s.fault = none → s.timerAcc < 1 / s.rates.timerHz
  faultPc_zero : s.fault = none → s.faultPc = 0

end Sys2Proof.Machine
end

