-- ==== Sys2Proof/Certificates/Slice0/Obligations.lean ====
section
/-! DEFINITION. The statements for the provers, each a rule of spec/ or a consequence of rules. -/

namespace Sys2Proof.Machine

/-! ### The vocabulary of the statements -/

/-- What a statement lets an instruction change. PC is not part of it: every statement that uses it gives
PC's value itself. -/
structure MayChange where
  /-- The general registers that may change. -/
  regs : List Ix16 := []
  /-- I. -/
  i : Bool := false
  /-- STACK and SP. -/
  stack : Bool := false
  /-- The addresses whose byte may change. -/
  mem : List Nat := []
  /-- The display. -/
  pix : Bool := false
  /-- DT. -/
  dt : Bool := false
  /-- ST. -/
  st : Bool := false
  /-- The key-wait latch. -/
  wait : Bool := false
  /-- FAULT and FAULT_PC. -/
  fault : Bool := false
  /-- The model's position in the random input. -/
  rnd : Bool := false

/-- Everything outside `c`, PC apart, is the same in t as in s. -/
structure Keeps (c : MayChange) (s t : State) : Prop where
  regs : ∀ k, k ∉ c.regs → t.reg k = s.reg k
  i : c.i = false → t.i = s.i
  stack : c.stack = false → t.stack = s.stack ∧ t.sp = s.sp
  mem : ∀ a, a ∉ c.mem → t.mem.read a = s.mem.read a
  pix : c.pix = false → t.pix = s.pix
  dt : c.dt = false → t.dt = s.dt
  st : c.st = false → t.st = s.st
  wait : c.wait = false → t.wait = s.wait
  fault : c.fault = false → t.fault = s.fault ∧ t.faultPc = s.faultPc
  rnd : c.rnd = false → t.rndIn = s.rndIn ∧ t.rndCount = s.rndCount
  key : t.key = s.key
  session : t.quirks = s.quirks ∧ t.rates = s.rates
  time : t.cpuAcc = s.cpuAcc ∧ t.timerAcc = s.timerAcc
  schedule : t.schedule = s.schedule

/-- t is s after `raise f` in the execute phase: PC as it stands, FAULT = f, FAULT_PC = PC
(60_exceptions.md R222). -/
def Raised (f : Fault) (s t : State) : Prop := t.pc = s.pc ∧ t.fault = some f ∧ t.faultPc = s.pc

/-- A condition as the byte value a flag takes (10_state.md R22). -/
def flagValue (c : Prop) [Decidable c] : Nat := if c then 1 else 0

/-- The condition of the six skip instructions (10_state.md R27); a key index above 15 never skips. -/
def skipHolds (s : State) : Instr → Prop
  | .seImm x nn => s.reg x = nn
  | .sneImm x nn => s.reg x ≠ nn
  | .seReg x y => s.reg x = s.reg y
  | .sneReg x y => s.reg x ≠ s.reg y
  | .skp x => ∃ k : Ix16, (s.reg x).toNat = k.val ∧ s.key[k.val] = true
  | .sknp x => ∃ k : Ix16, (s.reg x).toNat = k.val ∧ s.key[k.val] = false
  | _ => False

/-- The instructions that set PC themselves (10_state.md R27). -/
def setsPc : Instr → Bool
  | .jp _ | .call _ | .ret | .jpV0 _ | .ldVxK _ => true
  | _ => false

/-- The general registers an instruction may write: its destination, and VF for the seven flag writers
(10_state.md R24). -/
def writtenRegs : Instr → List Ix16
  | .ldImm x _ | .addImm x _ | .ldReg x _ | .orReg x _ | .andReg x _ | .xorReg x _
  | .rnd x _ | .ldVxDT x | .ldVxK x => [x]
  | .addReg x _ | .subReg x _ | .shr x _ | .subnReg x _ | .shl x _ => [x, VF]
  | .addI _ | .drw _ _ _ => [VF]
  | .loadRegs x => (List.finRange 16).filter (fun k => k ≤ x)
  | _ => []

/-- The addresses an instruction stores to, below the end of memory (20_memory.md R67). -/
def storeAddrs (s : State) : Instr → List Nat
  | .ldB _ => ([0, 1, 2].map (dataAddr s)).filter (· ≤ 4095)
  | .storeRegs x => ((List.range (x.val + 1)).map (dataAddr s)).filter (· ≤ 4095)
  | _ => []

/-- The execute-phase fault of an instruction (60_exceptions.md R224). -/
def faultOf : Instr → Option Fault
  | .call _ => some .stackOverflow
  | .ret => some .stackUnderflow
  | .ldB _ | .storeRegs _ => some .memWriteOutOfBounds
  | .loadRegs _ | .drw _ _ _ => some .memReadOutOfBounds
  | .skp _ | .sknp _ => some .keyIndexOutOfRange
  | _ => none

/-- The sprite of DRW covers pixel (row y', column x') with a set bit: origin V[X] mod 64, V[Y] mod 32,
row r at I + r, bit 7 leftmost, nothing beyond the far edges (43_random_display.md R182). -/
def spriteBit (s : State) (x y : Ix16) (n : Fin 16) (y' : Fin 32) (x' : Fin 64) : Prop :=
  ∃ r j : Nat, r < n.val ∧ j < 8 ∧ y'.val = (s.reg y).toNat % 32 + r ∧
    x'.val = (s.reg x).toNat % 64 + j ∧ (s.mem.read (dataAddr s r)).getLsbD (7 - j) = true

/-- n CpuSteps in a row. -/
def cpuSteps : Nat → State → Outcome State
  | 0, s => .next s
  | n + 1, s =>
    match cpuStep s with
    | .next t => cpuSteps n t
    | .fault f => .fault f
    | .refused r => .refused r

/-- Of the CpuSteps in a row from s, the k-th is the first to fault, and u is the state it leaves. -/
def FaultsAt (k : Nat) (s u : State) : Prop :=
  ∃ (j : Nat) (b : State), k = j + 1 ∧ cpuSteps j s = .next b ∧ b.running ∧
    cpuStep b = .next u ∧ u.fault ≠ none

/-- n TimerTicks in a row. -/
def timerTicks : Nat → State → State
  | 0, s => s
  | n + 1, s => timerTicks n (timerTick s)

end Sys2Proof.Machine

open Sys2Proof Sys2Proof.Machine

/-! ### Encoding (30_encoding.md) -/

/-- Words written out bit by bit from the encodings of R95, one or more a family, decode to their
instructions. The opcode numbers other than those of CLS, JP, LD Vx,NN, LD F and LD B are the spec's
general knowledge, its decision D4 (log 7); that 0x5AB1 is NOP is its decision D5 (log 5). -/
def Obligations.DecodesSpecWords : Prop :=
  decodeWord 0b0000000011100000#16 = .cls ∧
  decodeWord 0b0001001000000000#16 = .jp 0x200 ∧
  decodeWord 0b0110101000000101#16 = .ldImm 10 0x05 ∧
  decodeWord 0b1111101000101001#16 = .ldF 10 ∧
  decodeWord 0b1111001100110011#16 = .ldB 3 ∧
  decodeWord 0b1000101010111110#16 = .shl 10 11 ∧
  decodeWord 0b1101000000010101#16 = .drw 0 1 5 ∧
  decodeWord 0b1110010010100001#16 = .sknp 4 ∧
  decodeWord 0b1111001100001010#16 = .ldVxK 3 ∧
  decodeWord 0b0101101010110001#16 = .nop 0x5AB1

/-- R91: the fields of a word, as nibbles, as NN and NNN, and as bytes. -/
def Obligations.FieldsOfAWord : Prop :=
  ∀ op x y n : BitVec 4, ∀ w : Word, w = (op ++ x ++ y ++ n : BitVec 16) →
    opField w = op.toNat ∧ xField w = x.toFin ∧ yField w = y.toFin ∧ nField w = n.toFin ∧
    nnField w = (y ++ n : BitVec 8) ∧ nnnField w = (x ++ y ++ n : BitVec 12) ∧
    nnnField w = (x ++ nnField w : BitVec 12) ∧
    hiByte w = (op ++ x : BitVec 8) ∧ loByte w = (y ++ n : BitVec 8)

/-- Decoding an encoded well-formed instruction gives it back, as a word and as bytes with more bytes
after it; every operand at every value. -/
def Obligations.DecodeOfEncode : Prop :=
  ∀ i : Instr, i.wf = true →
    decodeWord (encode i) = i ∧ ∀ rest : List Byte, decode (encodeBytes i ++ rest) = .ok (i, rest)

/-- Every word decodes to a well-formed instruction whose encoding is that word: the decoder drops no
bit. -/
def Obligations.EncodeOfDecode : Prop :=
  ∀ w : Word, (decodeWord w).wf = true ∧ encode (decodeWord w) = w

/-- R95: a word decodes to the instruction of the one row it matches, and to NOP when it matches none. -/
def Obligations.DecodeFollowsOpcodeMap : Prop :=
  ∀ w : Word,
    (∀ r ∈ opRows, w &&& r.mask = r.value ↔ (decodeWord w).mnemonic = r.mnemonic) ∧
    ((∀ r ∈ opRows, w &&& r.mask ≠ r.value) ↔ decodeWord w = .nop w)

/-- R99: the words that the table of R99 lists group by group are exactly the words that decode to NOP. That
groups 0, 5 and 9 are matched exactly is the spec's decision D5 (log 5). -/
def Obligations.UnrecognisedWordsAreNop : Prop :=
  ∀ w : Word, unrecognised w = true ↔ decodeWord w = .nop w

/-! ### The step, the fetch and faults (60_exceptions.md, 20_memory.md) -/

/-- R9, R232: with no fault and PC at most 4094, a CpuStep is exec of the instruction the two bytes at PC
decode to, high byte first, in the state whose PC has moved past them; a step is that CpuStep when the
event stands first in store, which it leaves, and when nothing is in store. The store and its empty case
are the model's own (log 8). -/
def Obligations.StepRunsDecodedInstruction : Prop :=
  ∀ (s : State) (i : Instr), s.running → s.pc.toNat ≤ 4094 →
    decode [s.mem.read s.pc.toNat, s.mem.read (s.pc.toNat + 1)] = .ok (i, []) →
    (s.schedule = [] → step s = exec i { s with pc := s.pc + 2 }) ∧
    ∀ rest, s.schedule = .cpuStep :: rest →
      step s = exec i { s with pc := s.pc + 2, schedule := rest }

/-- R9, R61, R222: the fetch of a CpuStep at a PC above 4094 faults, PC is not advanced, FAULT_PC is PC and
nothing else changes but that the event leaves the store, where it stood there. The exact bound is the
spec's decision D9 (log 16), the recorded PC its decision D18 (log 4); the store and its empty case are
the model's own (log 8). -/
def Obligations.FetchBeyondMemoryFaults : Prop :=
  ∀ s : State, s.running → 4094 < s.pc.toNat →
    (s.schedule = [] → step s = .next { s with fault := some .fetchOutOfBounds, faultPc := s.pc }) ∧
    ∀ rest, s.schedule = .cpuStep :: rest →
      step s = .next { s with fault := some .fetchOutOfBounds, faultPc := s.pc, schedule := rest }

/-- R223: a faulted CORE changes nothing at a CpuStep, a TimerTick, a KeySample or a HostIteration: only
the model's own list of events gets shorter. That the core stays stopped is the spec's decision D27
(log 4). -/
def Obligations.FaultedCoreIgnoresEvents : Prop :=
  ∀ s : State, s.fault ≠ none →
    (s.schedule = [] → step s = .next s) ∧
    ∀ (e : Event) (rest : List Event), s.schedule = e :: rest → e.legal = true →
      (∀ p, e ≠ .reset p) → step s = .next { s with schedule := rest }

/-- Every step keeps the machine's invariant: canonical memory, PC and return addresses in range, rates
positive, accumulators in range, FAULT_PC zero until a fault. -/
def Obligations.StepKeepsInvariant : Prop :=
  ∀ s t : State, s.Inv → step s = .next t → t.Inv

/-- The state after reset meets the invariant. -/
def Obligations.ResetMeetsInvariant : Prop := State.reset.Inv

/-- R43: what reset leaves. The zeros of V, I, the stack, DT, ST, the display, the keys, the latch and
unlisted memory are the spec's decision D2 (log 1); the font bytes are its general knowledge (log 2). -/
def Obligations.ResetStateValues : Prop :=
  State.reset.pc = 0x200 ∧ State.reset.sp.val = 0 ∧ State.reset.quirks = ⟨false, false, false⟩ ∧
  (∀ k, State.reset.reg k = 0) ∧ State.reset.i = 0 ∧ State.reset.dt = 0 ∧ State.reset.st = 0 ∧
  (∀ y x, State.reset.pix.pixel y x = false) ∧ (∀ k, State.reset.keyDown k = false) ∧
  State.reset.wait = ⟨false, 0⟩ ∧ State.reset.fault = none ∧ State.reset.faultPc = 0 ∧
  State.reset.cpuAcc = 0 ∧ State.reset.timerAcc = 0 ∧ (∀ k : Fin 16, State.reset.stack[k.val] = 0) ∧
  (∀ k : Fin 80, State.reset.mem.read (0x50 + k.val) = Config.defaultFont[k.val]) ∧
  ∀ a, ¬ (0x50 ≤ a ∧ a < 0xA0) → State.reset.mem.read a = 0

/-- R260, R264: a Reset with a ROM of at most 3584 bytes starts a session from any state, a faulted one
too: PC 0x200, no fault, empty stack, Q and the rates from the session, font and ROM in memory, zero
elsewhere. The zeros are the spec's decision D2 (log 1); the schedule is the model's own (log 8). -/
def Obligations.ResetEventLoadsSession : Prop :=
  ∀ (s : State) (p : Session) (rest : List Event) (rom : List Byte),
    s.schedule = .reset p :: rest → 0 < p.rates.cpuHz → 0 < p.rates.timerHz →
    p.rom = some rom → rom.length ≤ 3584 →
    ∃ t, step s = .next t ∧ t.schedule = rest ∧ t.pc = 0x200 ∧ t.sp.val = 0 ∧ t.fault = none ∧
      t.faultPc = 0 ∧ t.quirks = p.quirks ∧ t.rates = p.rates ∧ (∀ k, t.reg k = 0) ∧ t.i = 0 ∧
      t.dt = 0 ∧ t.st = 0 ∧ (∀ y x, t.pix.pixel y x = false) ∧ (∀ k, t.keyDown k = false) ∧
      t.wait = ⟨false, 0⟩ ∧ t.cpuAcc = 0 ∧ t.timerAcc = 0 ∧
      (∀ k : Fin 80, t.mem.read (0x50 + k.val) = p.font[k.val]) ∧
      (∀ k, k < rom.length → t.mem.read (0x200 + k) = rom.getD k 0) ∧
      ∀ a, ¬ (0x50 ≤ a ∧ a < 0xA0) → ¬ (0x200 ≤ a ∧ a < 0x200 + rom.length) → t.mem.read a = 0

/-- R265: a Reset whose ROM is unreadable or longer than 3584 bytes leaves FAULT = LoadFailure,
FAULT_PC = 0x200 and no byte of the ROM in memory; the font is there. The recorded PC is the spec's
decision D18 (log 4), the zeros of memory its decision D2 (log 1); the schedule is the model's own
(log 8). -/
def Obligations.ResetEventLoadFailure : Prop :=
  ∀ (s : State) (p : Session) (rest : List Event),
    s.schedule = .reset p :: rest → 0 < p.rates.cpuHz → 0 < p.rates.timerHz →
    (p.rom = none ∨ ∃ rom, p.rom = some rom ∧ 3584 < rom.length) →
    ∃ t, step s = .next t ∧ t.schedule = rest ∧ t.fault = some .loadFailure ∧ t.faultPc = 0x200 ∧
      t.pc = 0x200 ∧ (∀ k : Fin 80, t.mem.read (0x50 + k.val) = p.font[k.val]) ∧
      ∀ a, ¬ (0x50 ≤ a ∧ a < 0xA0) → t.mem.read a = 0

/-- R69: the block write is all or nothing. -/
def Obligations.WriteBlockAllOrNothing : Prop :=
  ∀ (m : Memory) (start : Nat) (bytes : List Byte),
    (4096 < start + bytes.length → m.writeBlock start bytes = none) ∧
    (start + bytes.length ≤ 4096 → ∃ m', m.writeBlock start bytes = some m' ∧
      (∀ k, k < bytes.length → m'.read (start + k) = bytes.getD k 0) ∧
      ∀ a, ¬ (start ≤ a ∧ a < start + bytes.length) → m'.read a = m.read a)

/-- Two memories in the canonical form that read alike at every address are equal data. The form is the
model's own (log 3). -/
def Obligations.CanonicalMemoryIsUnique : Prop :=
  ∀ m m' : Memory, m.wf → m'.wf → (∀ a, m.read a = m'.read a) → m = m'

/-- R75: after LD [I], V0 has stored at an I of at most 4095, a step that fetches at I, or at the address
before it, runs the instruction decoded from a word that holds the stored byte: its first byte when PC is
I, its second when PC + 1 is I. It does so in every state with that memory, wherever the jump to PC came
from. No word is fetched at 4095 (R61), so a byte stored there is a second byte only, the spec's decision
D9 (log 16). Coherence without a fence is the spec's decision D24 (log 20); that an empty schedule means a
CpuStep is the model's choice (log 8). -/
def Obligations.StoreSeenByNextFetch : Prop :=
  ∀ s t u : State, s.i.toNat ≤ 4095 → exec (.storeRegs 0) s = .next t → u.mem = t.mem → u.canFetch →
    (u.pc.toNat = s.i.toNat →
      step u = exec (decodeWord (joinBytes (s.reg 0) (s.mem.read (s.i.toNat + 1))))
        { u with pc := u.pc + 2 }) ∧
    (u.pc.toNat + 1 = s.i.toNat →
      step u = exec (decodeWord (joinBytes (s.mem.read u.pc.toNat) (s.reg 0)))
        { u with pc := u.pc + 2 })

/-! ### The call stack (10_state.md) -/

/-- R30: Push writes the entry at SP and moves SP up; at SP = 16 it raises StackOverflow and writes
nothing else. FAULT_PC = PC (R222) is the spec's decision D18 (log 4). -/
def Obligations.PushAddsTop : Prop :=
  ∀ (v : Word) (s : State),
    (s.sp.val < 16 → ∃ t, push v s = .going t ∧ t.sp.val = s.sp.val + 1 ∧
      (∀ k : Fin 16, t.stack[k.val] = if k.val = s.sp.val then v else s.stack[k.val]) ∧
      t.pc = s.pc ∧ Keeps { stack := true } s t) ∧
    (s.sp.val = 16 → ∃ t, push v s = .raised t ∧ Raised .stackOverflow s t ∧
      Keeps { fault := true } s t)

/-- R31: Pop moves SP down and hands on the entry at the new SP; at SP = 0 it raises StackUnderflow and
writes nothing else. FAULT_PC = PC (R222) is the spec's decision D18 (log 4). -/
def Obligations.PopTakesTop : Prop :=
  ∀ (use : Word → State → Flow) (s : State),
    (∀ k : Fin 16, s.sp.val = k.val + 1 → ∃ t, pop use s = use s.stack[k.val] t ∧
      t.sp.val = k.val ∧ t.stack = s.stack ∧ t.pc = s.pc ∧ Keeps { stack := true } s t) ∧
    (s.sp.val = 0 → ∃ t, pop use s = .raised t ∧ Raised .stackUnderflow s t ∧
      Keeps { fault := true } s t)

/-! ### Rules about every instruction -/

/-- R27, R128: an instruction that does not set PC itself leaves PC past a taken skip at A + 4 and
otherwise at A + 2, also when it faults; during execution PC is A + 2. -/
def Obligations.PcAfterSkipsAndPlainInstructions : Prop :=
  ∀ (i : Instr) (s t : State), setsPc i = false → exec i s = .next t →
    (skipHolds s i → t.pc = s.pc + 2) ∧ (¬ skipHolds s i → t.pc = s.pc)

/-- R24, R21: an instruction changes no general register but its destination and, for the seven flag
writers, VF. -/
def Obligations.RegistersChangedOnlyIfNamed : Prop :=
  ∀ (i : Instr) (s t : State) (k : Ix16), exec i s = .next t → k ∉ writtenRegs i →
    t.reg k = s.reg k

/-- R25, R29, R33, R34, R35, R36, R38, R40: each other piece of state is changed by its own instructions
only, and the keys, Q, the rates, the accumulators and the schedule by none. -/
def Obligations.StateChangedOnlyByItsWriters : Prop :=
  ∀ (i : Instr) (s t : State), exec i s = .next t →
    (t.i ≠ s.i → (∃ a, i = .ldI a) ∨ (∃ x, i = .addI x) ∨ (∃ x, i = .ldF x) ∨
      (s.quirks.incI = true ∧ ∃ x, i = .storeRegs x ∨ i = .loadRegs x)) ∧
    (t.stack ≠ s.stack → ∃ a, i = .call a) ∧
    (t.sp ≠ s.sp → (∃ a, i = .call a) ∨ i = .ret) ∧
    (t.pix ≠ s.pix → i = .cls ∨ ∃ x y n, i = .drw x y n) ∧
    (t.dt ≠ s.dt → ∃ x, i = .ldDT x) ∧ (t.st ≠ s.st → ∃ x, i = .ldST x) ∧
    (t.wait ≠ s.wait → ∃ x, i = .ldVxK x) ∧
    (t.rndIn ≠ s.rndIn ∨ t.rndCount ≠ s.rndCount → ∃ x nn, i = .rnd x nn) ∧
    t.key = s.key ∧ t.quirks = s.quirks ∧ t.rates = s.rates ∧ t.cpuAcc = s.cpuAcc ∧
    t.timerAcc = s.timerAcc ∧ t.schedule = s.schedule

/-- R67, R63: a byte of memory changes only if its address is one the instruction stores to, and no
address above 4095 is ever stored to. -/
def Obligations.MemoryChangesOnlyAtStoreAddresses : Prop :=
  ∀ (i : Instr) (s t : State) (a : Nat), exec i s = .next t → a ∉ storeAddrs s i →
    t.mem.read a = s.mem.read a

/-- R224: an instruction raises no fault but its own. -/
def Obligations.FaultsByInstruction : Prop :=
  ∀ (i : Instr) (s t : State), exec i s = .next t →
    t.fault = s.fault ∨ (faultOf i ≠ none ∧ t.fault = faultOf i)

/-- R222: a fault of the execute phase records PC = A + 2 and leaves PC there, and only LD B, LD [I] and
LD Vx,[I] can have changed registers, I or memory before it; the display, the stack, the timers and
the latch are unchanged. The recorded PC is the spec's decision D18 (log 4). -/
def Obligations.ExecuteFaultIsPrecise : Prop :=
  ∀ (i : Instr) (s t : State) (f : Fault), s.fault = none → exec i s = .next t → t.fault = some f →
    Raised f s t ∧
    Keeps { regs := writtenRegs i, i := true, mem := storeAddrs s i, fault := true } s t ∧
    ((∃ x, i = .ldB x ∨ i = .storeRegs x ∨ i = .loadRegs x) ∨ Keeps { fault := true } s t)

/-- Every instruction answers a next state in every state: none is refused, none stops the machine
(R99, R130, R229). A fault the spec describes is such a next state (log 4). -/
def Obligations.EveryInstructionAnswersNext : Prop := ∀ (i : Instr) (s : State), ∃ t, exec i s = .next t

/-- A step answers a next state unless the event in store breaks the host's contract, and then it is
refused by name. The contract is R245's third column; the refusal is the model's choice (log 10). -/
def Obligations.StepAnswersNextOrContractRefusal : Prop :=
  ∀ s : State,
    (∀ e rest, s.schedule = e :: rest → e.legal = true) ∧ (∃ t, step s = .next t) ∨
    (∃ e rest, s.schedule = e :: rest ∧ e.legal = false) ∧ step s = .refused .outsideHostContract

/-! ### Control flow (40_control_flow.md) -/

/-- R99, R120: every unrecognised word is NOP, and NOP changes nothing; PC is already A + 2. That the
unrecognised words include 5XYN and 9XYN with N not 0 and 0XEE with X not 0 is the spec's decision D5
(log 5). -/
def Obligations.NopOnlyAdvances : Prop :=
  ∀ (w : Word) (s : State), unrecognised w = true →
    decodeWord w = .nop w ∧ exec (.nop w) s = .next s

/-- R121: RET sets PC to the top entry and removes it. -/
def Obligations.RetReturnsToTop : Prop :=
  ∀ (s : State) (k : Fin 16), s.sp.val = k.val + 1 →
    ∃ t, exec .ret s = .next t ∧ t.pc = s.stack[k.val] ∧ t.sp.val = k.val ∧ t.stack = s.stack ∧
      Keeps { stack := true } s t

/-- R122: JP NNN, every NNN: PC is NNN, above 4094, where a fetch faults, for NNN = 4095 only. That bound of
the fetch is R61's, the spec's decision D9 (log 16). The source states this opcode. -/
def Obligations.JpJumps : Prop :=
  ∀ (nnn : Addr12) (s : State), decodeWord (0x1#4 ++ nnn : BitVec 16) = .jp nnn ∧
    ∃ t, exec (.jp nnn) s = .next t ∧ t.pc.toNat = nnn.toNat ∧
      (4094 < t.pc.toNat ↔ nnn = 0xFFF) ∧ Keeps {} s t

/-- R123: CALL NNN pushes the address after it and jumps. That it pushes A + 2 is the spec's decision
D8. -/
def Obligations.CallPushesReturnAddress : Prop :=
  ∀ (nnn : Addr12) (s : State) (k : Fin 16), s.sp.val = k.val →
    ∃ t, exec (.call nnn) s = .next t ∧ t.pc.toNat = nnn.toNat ∧ t.sp.val = k.val + 1 ∧
      t.stack[k.val] = s.pc ∧ (∀ j : Fin 16, j ≠ k → t.stack[j.val] = s.stack[j.val]) ∧
      Keeps { stack := true } s t

/-- R123, R121: a CALL on a full stack and a RET on an empty one fault, with nothing pushed, popped or
jumped. FAULT_PC = PC (R222) is the spec's decision D18 (log 4). -/
def Obligations.StackFaultsStop : Prop :=
  ∀ s : State,
    (s.sp.val = 16 → ∀ nnn : Addr12, ∃ t, exec (.call nnn) s = .next t ∧
      Raised .stackOverflow s t ∧ Keeps { fault := true } s t) ∧
    (s.sp.val = 0 → ∃ t, exec .ret s = .next t ∧ Raised .stackUnderflow s t ∧
      Keeps { fault := true } s t)

/-- R124 to R127: the four register skips add 2 to PC when their condition holds and change nothing
else. -/
def Obligations.SkipsCompareOperands : Prop :=
  ∀ (x y : Ix16) (nn : Byte) (s : State),
    (∃ t, exec (.seImm x nn) s = .next t ∧
      t.pc = (if s.reg x = nn then s.pc + 2 else s.pc) ∧ Keeps {} s t) ∧
    (∃ t, exec (.sneImm x nn) s = .next t ∧
      t.pc = (if s.reg x = nn then s.pc else s.pc + 2) ∧ Keeps {} s t) ∧
    (∃ t, exec (.seReg x y) s = .next t ∧
      t.pc = (if s.reg x = s.reg y then s.pc + 2 else s.pc) ∧ Keeps {} s t) ∧
    (∃ t, exec (.sneReg x y) s = .next t ∧
      t.pc = (if s.reg x = s.reg y then s.pc else s.pc + 2) ∧ Keeps {} s t)

/-- R129: JP V0, NNN adds V0, or under Q.jump_vx the register that bits 11:8 of NNN name; the sum is not
reduced (the spec's decision D13). -/
def Obligations.OffsetJumpAddsRegister : Prop :=
  ∀ (x : BitVec 4) (nn : Byte) (s : State),
    ∃ t, exec (.jpV0 (x ++ nn : BitVec 12)) s = .next t ∧
      t.pc.toNat = x.toNat * 256 + nn.toNat +
        (if s.quirks.jumpVx = true then (s.reg x.toFin).toNat else (s.reg 0).toNat) ∧
      Keeps {} s t

/-! ### Load, arithmetic and logic (41_arith_logic.md) -/

/-- R140: LD Vx, NN, every register, VF included. The source states this opcode. -/
def Obligations.LoadImmediateWrites : Prop :=
  ∀ (x : BitVec 4) (nn : Byte) (s : State),
    decodeWord (0x6#4 ++ x ++ nn : BitVec 16) = .ldImm x.toFin nn ∧
    ∃ t, exec (.ldImm x.toFin nn) s = .next t ∧ t.reg x.toFin = nn ∧ t.pc = s.pc ∧
      Keeps { regs := [x.toFin] } s t

/-- R141: ADD Vx, NN wraps and writes no flag. -/
def Obligations.AddImmediateWraps : Prop :=
  ∀ (x : Ix16) (nn : Byte) (s : State),
    ∃ t, exec (.addImm x nn) s = .next t ∧
      (t.reg x).toNat = ((s.reg x).toNat + nn.toNat) % 256 ∧ t.pc = s.pc ∧
      Keeps { regs := [x] } s t

/-- R142 to R145: copy, OR, AND and XOR write their result, bit by bit, and no flag (the spec's decision
D7). -/
def Obligations.CopyAndLogicWriteResult : Prop :=
  ∀ (x y : Ix16) (s : State),
    (∃ t, exec (.ldReg x y) s = .next t ∧ t.reg x = s.reg y ∧ t.pc = s.pc ∧
      Keeps { regs := [x] } s t) ∧
    (∃ t, exec (.orReg x y) s = .next t ∧ t.pc = s.pc ∧ Keeps { regs := [x] } s t ∧
      ∀ b, b < 8 → (t.reg x).getLsbD b = ((s.reg x).getLsbD b || (s.reg y).getLsbD b)) ∧
    (∃ t, exec (.andReg x y) s = .next t ∧ t.pc = s.pc ∧ Keeps { regs := [x] } s t ∧
      ∀ b, b < 8 → (t.reg x).getLsbD b = ((s.reg x).getLsbD b && (s.reg y).getLsbD b)) ∧
    (∃ t, exec (.xorReg x y) s = .next t ∧ t.pc = s.pc ∧ Keeps { regs := [x] } s t ∧
      ∀ b, b < 8 → (t.reg x).getLsbD b = ((s.reg x).getLsbD b ^^ (s.reg y).getLsbD b))

/-- R146: ADD Vx, Vy. With X = 15 the carry stands in VF and the sum is lost, the spec's decision D6
(log 6). -/
def Obligations.AddSetsCarry : Prop :=
  ∀ (x y : Ix16) (s : State),
    ∃ t, exec (.addReg x y) s = .next t ∧ t.pc = s.pc ∧
      (t.reg VF).toNat = flagValue ((s.reg x).toNat + (s.reg y).toNat > 255) ∧
      (x ≠ VF → (t.reg x).toNat = ((s.reg x).toNat + (s.reg y).toNat) % 256) ∧
      Keeps { regs := [x, VF] } s t

/-- R147, R149: SUB is VX - VY, SUBN is VY - VX, both into VX; VF is 1 when there is no borrow. With
X = 15 the flag stands in VF, the spec's decision D6 (log 6). -/
def Obligations.SubtractionsSetNoBorrow : Prop :=
  ∀ (x y : Ix16) (s : State),
    (∃ t, exec (.subReg x y) s = .next t ∧ t.pc = s.pc ∧
      (t.reg VF).toNat = flagValue ((s.reg x).toNat ≥ (s.reg y).toNat) ∧
      (x ≠ VF → ((t.reg x).toNat : Int) = ((s.reg x).toNat - (s.reg y).toNat : Int) % 256) ∧
      Keeps { regs := [x, VF] } s t) ∧
    (∃ t, exec (.subnReg x y) s = .next t ∧ t.pc = s.pc ∧
      (t.reg VF).toNat = flagValue ((s.reg y).toNat ≥ (s.reg x).toNat) ∧
      (x ≠ VF → ((t.reg x).toNat : Int) = ((s.reg y).toNat - (s.reg x).toNat : Int) % 256) ∧
      Keeps { regs := [x, VF] } s t)

/-- R148, R150: the shifts move VX, or VY under Q.shift_vy, by one place into VX; VF is the bit shifted
out. The destination is the spec's decision D30; with X = 15 the flag stands in VF, decision D6
(log 6). -/
def Obligations.ShiftsSetShiftedOutBit : Prop :=
  ∀ (x y : Ix16) (s : State) (b : Byte),
    b = (if s.quirks.shiftVy = true then s.reg y else s.reg x) →
    (∃ t, exec (.shr x y) s = .next t ∧ t.pc = s.pc ∧ (t.reg VF).toNat = b.toNat % 2 ∧
      (x ≠ VF → (t.reg x).toNat = b.toNat / 2) ∧ Keeps { regs := [x, VF] } s t) ∧
    (∃ t, exec (.shl x y) s = .next t ∧ t.pc = s.pc ∧ (t.reg VF).toNat = b.toNat / 128 ∧
      (x ≠ VF → (t.reg x).toNat = b.toNat * 2 % 256) ∧ Keeps { regs := [x, VF] } s t)

/-! ### Index register and memory (42_index_memory.md) -/

/-- R160, R161: LD I, NNN sets I; ADD I, Vx keeps 16 bits of the sum and flags the unwrapped sum against
0x0FFF (the spec's decision D12, log 16). -/
def Obligations.IndexLoadAndAdd : Prop :=
  ∀ (nnn : Addr12) (x : Ix16) (s : State),
    (∃ t, exec (.ldI nnn) s = .next t ∧ t.i.toNat = nnn.toNat ∧ t.pc = s.pc ∧
      Keeps { i := true } s t) ∧
    ∃ t, exec (.addI x) s = .next t ∧ t.pc = s.pc ∧
      t.i.toNat = (s.i.toNat + (s.reg x).toNat) % 65536 ∧
      (t.reg VF).toNat = flagValue (s.i.toNat + (s.reg x).toNat > 0x0FFF) ∧
      Keeps { regs := [VF], i := true } s t

/-- R162: LD F, Vx, every register and value. The source states this opcode. -/
def Obligations.GlyphAddressOfDigit : Prop :=
  ∀ (x : BitVec 4) (s : State),
    decodeWord (0xF#4 ++ x ++ 0x29#8 : BitVec 16) = .ldF x.toFin ∧
    ∃ t, exec (.ldF x.toFin) s = .next t ∧
      t.i.toNat = 0x50 + 5 * ((s.reg x.toFin).toNat % 16) ∧ t.pc = s.pc ∧ Keeps { i := true } s t

/-- R163: LD B, Vx with its three bytes inside memory. -/
def Obligations.BcdStoresDigits : Prop :=
  ∀ (x : Ix16) (s : State), s.i.toNat + 2 ≤ 4095 →
    ∃ t, exec (.ldB x) s = .next t ∧ t.pc = s.pc ∧
      (t.mem.read (dataAddr s 0)).toNat = (s.reg x).toNat / 100 ∧
      (t.mem.read (dataAddr s 1)).toNat = (s.reg x).toNat / 10 % 10 ∧
      (t.mem.read (dataAddr s 2)).toNat = (s.reg x).toNat % 10 ∧
      Keeps { mem := [dataAddr s 0, dataAddr s 1, dataAddr s 2] } s t

/-- R164: LD [I], Vx with all its bytes inside memory, under both settings of Q.inc_i. -/
def Obligations.BlockStoreWritesRegisters : Prop :=
  ∀ (x : Ix16) (s : State), s.i.toNat + x.val ≤ 4095 →
    ∃ t, exec (.storeRegs x) s = .next t ∧ t.pc = s.pc ∧
      (∀ k : Ix16, k ≤ x → t.mem.read (dataAddr s k.val) = s.reg k) ∧
      t.i.toNat = (if s.quirks.incI = true then s.i.toNat + x.val + 1 else s.i.toNat) ∧
      Keeps { i := true, mem := (List.range (x.val + 1)).map (dataAddr s) } s t

/-- R165: LD Vx, [I] with all its bytes inside memory, under both settings of Q.inc_i. -/
def Obligations.BlockLoadReadsRegisters : Prop :=
  ∀ (x : Ix16) (s : State), s.i.toNat + x.val ≤ 4095 →
    ∃ t, exec (.loadRegs x) s = .next t ∧ t.pc = s.pc ∧
      (∀ k : Ix16, k ≤ x → t.reg k = s.mem.read (dataAddr s k.val)) ∧
      t.i.toNat = (if s.quirks.incI = true then s.i.toNat + x.val + 1 else s.i.toNat) ∧
      Keeps { regs := (List.finRange 16).filter (fun k => k ≤ x), i := true } s t

/-- R163, R164: a store that leaves memory faults at its first byte above 4095; the bytes before it are
written, none after it; under Q.inc_i the block store has moved I past the bytes written. The partial
effect is the spec's decision D11 (log 16), FAULT_PC = PC (R222) its decision D18 (log 4). -/
def Obligations.StoresBeyondMemoryFault : Prop :=
  ∀ (x : Ix16) (s : State),
    (4095 < s.i.toNat + 2 → ∃ t, exec (.ldB x) s = .next t ∧ Raised .memWriteOutOfBounds s t ∧
      (dataAddr s 0 ≤ 4095 → (t.mem.read (dataAddr s 0)).toNat = (s.reg x).toNat / 100) ∧
      (dataAddr s 1 ≤ 4095 → (t.mem.read (dataAddr s 1)).toNat = (s.reg x).toNat / 10 % 10) ∧
      Keeps { mem := [dataAddr s 0, dataAddr s 1].filter (· ≤ 4095), fault := true } s t) ∧
    (4095 < s.i.toNat + x.val → ∃ t, exec (.storeRegs x) s = .next t ∧
      Raised .memWriteOutOfBounds s t ∧
      (∀ k : Ix16, dataAddr s k.val ≤ 4095 → t.mem.read (dataAddr s k.val) = s.reg k) ∧
      t.i.toNat = (if s.quirks.incI = true then max s.i.toNat 4096 else s.i.toNat) ∧
      Keeps { i := true, mem := ((List.range (x.val + 1)).map (dataAddr s)).filter (· ≤ 4095),
              fault := true } s t)

/-- R165, R182: a block load that leaves memory faults at its first byte above 4095 with the registers
before it loaded and the rest unchanged; a DRW any of whose N bytes lies above 4095 faults before any
pixel or VF changes. That both are faults, and DRW's check first, are the spec's decisions D10 and
D15 (log 15, log 16), FAULT_PC = PC (R222) its decision D18 (log 4). -/
def Obligations.LoadsBeyondMemoryFault : Prop :=
  ∀ (x y : Ix16) (n : Fin 16) (s : State),
    (4095 < s.i.toNat + x.val → ∃ t, exec (.loadRegs x) s = .next t ∧
      Raised .memReadOutOfBounds s t ∧
      (∀ k : Ix16, dataAddr s k.val ≤ 4095 → t.reg k = s.mem.read (dataAddr s k.val)) ∧
      t.i.toNat = (if s.quirks.incI = true then max s.i.toNat 4096 else s.i.toNat) ∧
      Keeps { regs := (List.finRange 16).filter (fun k => dataAddr s k.val ≤ 4095), i := true,
              fault := true } s t) ∧
    (1 ≤ n.val → 4096 < s.i.toNat + n.val → ∃ t, exec (.drw x y n) s = .next t ∧
      Raised .memReadOutOfBounds s t ∧ Keeps { fault := true } s t)

/-! ### Random and display (43_random_display.md) -/

/-- R180: RND Vx, NN masks the byte on the port: the one the host has listed, else a free value, for every
value of it (log 9). Each RND takes one byte. -/
def Obligations.RandomByteIsMasked : Prop :=
  ∀ (x : Ix16) (nn : Byte) (s : State),
    ∃ t, exec (.rnd x nn) s = .next t ∧ t.pc = s.pc ∧
      (∀ b rest, s.rndIn = b :: rest → t.reg x = b &&& nn ∧ t.rndIn = rest) ∧
      (s.rndIn = [] → t.reg x = Config.rand8 s.rndCount &&& nn ∧ t.rndIn = []) ∧
      t.rndCount = s.rndCount + 1 ∧ Keeps { regs := [x], rnd := true } s t

/-- R181: CLS is the word 0x00E0 and no other, and clears every pixel and nothing else. The source states
this opcode. -/
def Obligations.ClsClearsDisplay : Prop :=
  (∀ w : Word, decodeWord w = .cls ↔ w = 0x00E0) ∧ ∀ s : State,
    ∃ t, exec .cls s = .next t ∧ (∀ y x, t.pix.pixel y x = false) ∧ t.pc = s.pc ∧
      Keeps { pix := true } s t

/-- R182: DRW with its bytes inside memory, N = 0 included: each pixel is inverted exactly if a set sprite
bit covers it, and VF is 1 exactly if such a pixel was set. V[X] and V[Y] are the values before VF is
written. Bit order, the check of all bytes and N = 0 are the spec's decisions D14, D15, D29
(log 15). -/
def Obligations.DrawXorsSprite : Prop :=
  ∀ (x y : Ix16) (n : Fin 16) (s : State), (n.val = 0 ∨ s.i.toNat + n.val ≤ 4096) →
    ∃ t, exec (.drw x y n) s = .next t ∧ t.pc = s.pc ∧
      (∀ y' x', spriteBit s x y n y' x' → t.pix.pixel y' x' = !s.pix.pixel y' x') ∧
      (∀ y' x', ¬ spriteBit s x y n y' x' → t.pix.pixel y' x' = s.pix.pixel y' x') ∧
      ((∃ y' x', spriteBit s x y n y' x' ∧ s.pix.pixel y' x' = true) → (t.reg VF).toNat = 1) ∧
      ((¬ ∃ y' x', spriteBit s x y n y' x' ∧ s.pix.pixel y' x' = true) → (t.reg VF).toNat = 0) ∧
      Keeps { regs := [VF], pix := true } s t

/-- R183: drawing the same sprite twice restores the display, and the second draw reports a collision
exactly if the first turned a pixel from clear to set. X and Y are not VF, which the first draw
writes. -/
def Obligations.DrawTwiceRestores : Prop :=
  ∀ (x y : Ix16) (n : Fin 16) (s t u : State), x ≠ VF → y ≠ VF →
    (n.val = 0 ∨ s.i.toNat + n.val ≤ 4096) →
    exec (.drw x y n) s = .next t → exec (.drw x y n) t = .next u →
    u.pix = s.pix ∧
    (u.reg VF = 1 ↔ ∃ y' x', s.pix.pixel y' x' = false ∧ t.pix.pixel y' x' = true)

/-! ### Keys and timers (44_keys_timers.md, 60_exceptions.md) -/

/-- R200, R201: SKP and SKNP with a key index of at most 15. -/
def Obligations.KeySkipsReadKeyVector : Prop :=
  ∀ (x : Ix16) (s : State) (k : Ix16), (s.reg x).toNat = k.val →
    (∃ t, exec (.skp x) s = .next t ∧
      t.pc = (if s.key[k.val] = true then s.pc + 2 else s.pc) ∧ Keeps {} s t) ∧
    (∃ t, exec (.sknp x) s = .next t ∧
      t.pc = (if s.key[k.val] = true then s.pc else s.pc + 2) ∧ Keeps {} s t)

/-- R200, R201: a key index above 15 faults, the spec's decision D16 (log 16). FAULT_PC = PC (R222) is its
decision D18 (log 4). -/
def Obligations.KeyIndexAboveFifteenFaults : Prop :=
  ∀ (x : Ix16) (s : State), 15 < (s.reg x).toNat →
    (∃ t, exec (.skp x) s = .next t ∧ Raised .keyIndexOutOfRange s t ∧ Keeps { fault := true } s t) ∧
    (∃ t, exec (.sknp x) s = .next t ∧ Raised .keyIndexOutOfRange s t ∧ Keeps { fault := true } s t)

/-- R202, R204, R205: the three timer moves. -/
def Obligations.TimerMovesCopy : Prop :=
  ∀ (x : Ix16) (s : State),
    (∃ t, exec (.ldVxDT x) s = .next t ∧ t.reg x = s.dt ∧ t.pc = s.pc ∧
      Keeps { regs := [x] } s t) ∧
    (∃ t, exec (.ldDT x) s = .next t ∧ t.dt = s.reg x ∧ t.pc = s.pc ∧ Keeps { dt := true } s t) ∧
    (∃ t, exec (.ldST x) s = .next t ∧ t.st = s.reg x ∧ t.pc = s.pc ∧ Keeps { st := true } s t)

/-- R203: LD Vx, K waits for a press, then for that key's release, then stores its index; while it waits
it only moves PC back and, at the press, latches the key. That a level counts as a press, that the
lowest key wins and that only its release ends the wait are the spec's decision D17 (log 14). -/
def Obligations.KeyWaitPressThenRelease : Prop :=
  ∀ (x : Ix16) (s : State),
    (s.wait.valid = false → (∀ k : Ix16, s.key[k.val] = false) →
      ∃ t, exec (.ldVxK x) s = .next t ∧ t.pc = s.pc - 2 ∧ Keeps {} s t) ∧
    (∀ k : Ix16, s.wait.valid = false → s.key[k.val] = true →
      (∀ j : Ix16, j < k → s.key[j.val] = false) →
      ∃ t, exec (.ldVxK x) s = .next t ∧ t.pc = s.pc - 2 ∧ t.wait = ⟨true, k⟩ ∧
        Keeps { wait := true } s t) ∧
    (s.wait.valid = true → s.key[s.wait.key.val] = true →
      ∃ t, exec (.ldVxK x) s = .next t ∧ t.pc = s.pc - 2 ∧ Keeps {} s t) ∧
    (s.wait.valid = true → s.key[s.wait.key.val] = false →
      ∃ t, exec (.ldVxK x) s = .next t ∧ t.pc = s.pc ∧ (t.reg x).toNat = s.wait.key.val ∧
        t.wait = ⟨false, s.wait.key⟩ ∧ Keeps { regs := [x], wait := true } s t)

/-- R237: a TimerTick decrements both timers, each stopping at 0, and nothing else; on a faulted CORE it
does nothing (the spec's decision D27, log 4). The schedule is the model's own (log 8). -/
def Obligations.TimerTickSaturates : Prop :=
  ∀ (s : State) (rest : List Event), s.schedule = .timerTick :: rest →
    ∃ t, step s = .next t ∧ t.schedule = rest ∧ t.pc = s.pc ∧
      (s.fault = none → t.dt.toNat = s.dt.toNat - 1 ∧ t.st.toNat = s.st.toNat - 1) ∧
      (s.fault ≠ none → t.dt = s.dt ∧ t.st = s.st) ∧
      Keeps { dt := true, st := true } { s with schedule := rest } t

/-- R244: a KeySample replaces the key vector by the sample and changes nothing else; on a faulted CORE it
does nothing (the spec's decision D27, log 4). The schedule is the model's own (log 8). -/
def Obligations.KeySampleReplacesKeys : Prop :=
  ∀ (s : State) (keys : Word) (rest : List Event), s.schedule = .keySample keys :: rest →
    ∃ t, step s = .next t ∧
      (s.fault = none → ∀ k : Ix16, t.key[k.val] = keys.getLsbD k.val) ∧
      (s.fault ≠ none → t.key = s.key) ∧
      { t with key := s.key } = { s with schedule := rest }

/-- R240, R241: an iteration whose CpuSteps do not fault is the key sample, floor((CPU_ACC + dt) * CPU_HZ)
CpuSteps, then floor((TIMER_ACC + dt) * TIMER_HZ) TimerTicks, and each accumulator holds the
remainder. Exact rational time is the spec's decision D19 (log 12); that the iteration is one step from the
schedule is the model's choice (log 8). -/
def Obligations.IterationRunsDueStepsAndTicks : Prop :=
  ∀ (s u : State) (rest : List Event) (dt : Rat) (keys : Word) (n m : Nat),
    s.schedule = .hostIteration dt keys :: rest →
    s.fault = none → 0 ≤ dt → 0 ≤ s.cpuAcc → 0 ≤ s.timerAcc →
    0 < s.rates.cpuHz → 0 < s.rates.timerHz →
    (n : Int) = ((s.cpuAcc + dt) * s.rates.cpuHz).floor →
    (m : Int) = ((s.timerAcc + dt) * s.rates.timerHz).floor →
    cpuSteps n (keySample keys { s with schedule := rest }) = .next u → u.fault = none →
    step s = .next
      { timerTicks m u with
        cpuAcc := s.cpuAcc + dt - n / s.rates.cpuHz
        timerAcc := s.timerAcc + dt - m / s.rates.timerHz }

/-- R240, R223: an iteration leaves a faulted state exactly when one of its due CpuSteps after the key
sample faults. The first that does, the k-th with k at most floor((CPU_ACC + dt) * CPU_HZ), is the
iteration's last event: the state is the one it leaves, but that CPU_ACC has lost k periods, so DT and ST
have not ticked, and TIMER_ACC is as before the iteration. That the fault ends the iteration, with no timer
work, is the spec's decision D27 (log 4), exact rational time its decision D19 (log 12); that the iteration
is one step from the schedule is the model's choice (log 8). -/
def Obligations.FaultingIterationSkipsTimers : Prop :=
  ∀ (s t : State) (rest : List Event) (dt : Rat) (keys : Word),
    s.schedule = .hostIteration dt keys :: rest → s.running → 0 ≤ dt → 0 < s.rates.cpuHz →
    (step s = .next t ∧ t.fault ≠ none ↔
      ∃ (k : Nat) (u : State), (k : Int) ≤ ((s.cpuAcc + dt) * s.rates.cpuHz).floor ∧
        FaultsAt k (keySample keys { s with schedule := rest }) u ∧
        t = { u with cpuAcc := s.cpuAcc + dt - k / s.rates.cpuHz }) ∧
    (step s = .next t → t.fault ≠ none → t.timerAcc = s.timerAcc)

/-- R238: with an empty timer accumulator and exactly one timer period of elapsed time, each timer ends one
lower than the CpuSteps left it, floored at 0. -/
def Obligations.OnePeriodIsOneTick : Prop :=
  ∀ (s u : State) (keys : Word), s.fault = none → s.timerAcc = 0 → 0 < s.rates.timerHz →
    cpuPart (1 / s.rates.timerHz) (keySample keys s) = .next u → u.fault = none →
    ∃ t, hostIteration (1 / s.rates.timerHz) keys s = .next t ∧
      t.dt.toNat = u.dt.toNat - 1 ∧ t.st.toNat = u.st.toNat - 1 ∧ t.timerAcc = 0
end

