-- ==== Sys2Proof/Laws/Memory.lean ====
section
/-! SUPPORT. The laws of main memory: read after write, writing elsewhere, and that every operation keeps
the canonical form. -/

namespace Sys2Proof.Machine

@[simp] theorem Memory.read_nil (a : Nat) : Memory.read [] a = Memory.unlisted a := rfl

theorem Memory.read_put_same (a : Nat) (b : Byte) (m : Memory) : (m.put a b).read a = b := by
  induction m with
  | nil => simp [Memory.put, Memory.read]
  | cons c rest ih =>
    simp only [Memory.put]
    split
    · simp [Memory.read]
    · split
      · simp [Memory.read]
      · next h => simpa [Memory.read, h] using ih

theorem Memory.read_put_other {a a' : Nat} (h : a' ≠ a) (b : Byte) (m : Memory) :
    (m.put a b).read a' = m.read a' := by
  induction m with
  | nil => simp [Memory.put, Memory.read, h]
  | cons c rest ih =>
    simp only [Memory.put]
    split
    · simp [Memory.read, h]
    · split
      · next h' => subst h'; simp [Memory.read, h]
      · simp [Memory.read, ih]

theorem Memory.read_erase_same (a : Nat) (m : Memory) : (m.erase a).read a = Memory.unlisted a := by
  induction m with
  | nil => rfl
  | cons c rest ih =>
    simp only [Memory.erase, List.filter_cons] at ih ⊢
    split
    · next h => simp [Memory.read, ih, show a ≠ c.1 from fun e => by simp [e] at h]
    · exact ih

theorem Memory.read_erase_other {a a' : Nat} (h : a' ≠ a) (m : Memory) :
    (m.erase a).read a' = m.read a' := by
  induction m with
  | nil => rfl
  | cons c rest ih =>
    simp only [Memory.erase, List.filter_cons] at ih ⊢
    split
    · simp [Memory.read, ih]
    · next h' =>
      have hc : c.1 = a := by simpa using h'
      simp [Memory.read, ih, hc, h]

/-- A read after a write to the same address gives the value written. -/
@[simp] theorem Memory.read_write_same (m : Memory) (a : Nat) (b : Byte) :
    (m.write a b).read a = b := by
  unfold Memory.write
  split
  · next h => rw [Memory.read_erase_same, h]
  · exact Memory.read_put_same a b m

/-- A write leaves every other address alone. -/
theorem Memory.read_write_other (m : Memory) {a a' : Nat} (h : a' ≠ a) (b : Byte) :
    (m.write a b).read a' = m.read a' := by
  unfold Memory.write
  split
  · exact Memory.read_erase_other h m
  · exact Memory.read_put_other h b m

/-- Reading any address after a write, in one equation. -/
theorem Memory.read_write (m : Memory) (a a' : Nat) (b : Byte) :
    (m.write a b).read a' = if a' = a then b else m.read a' := by
  split
  · next h => rw [h, Memory.read_write_same]
  · next h => exact Memory.read_write_other m h b

theorem Memory.mem_put {a : Nat} {b : Byte} {m : Memory} {c : Host.Cell} (h : c ∈ m.put a b) :
    c = (a, b) ∨ c ∈ m := by
  induction m with
  | nil => simpa [Memory.put] using h
  | cons d rest ih =>
    simp only [Memory.put] at h
    split at h
    · simpa using h
    · split at h
      · rcases List.mem_cons.1 h with h | h
        · exact .inl h
        · exact .inr (List.mem_cons_of_mem _ h)
      · rcases List.mem_cons.1 h with h | h
        · exact .inr (h ▸ List.mem_cons_self)
        · exact (ih h).imp_right (List.mem_cons_of_mem _)

theorem Memory.put_rising {a : Nat} {b : Byte} {m : Memory}
    (h : m.Pairwise (fun p q => p.1 < q.1)) : (m.put a b).Pairwise (fun p q => p.1 < q.1) := by
  induction m with
  | nil => simp [Memory.put]
  | cons d rest ih =>
    obtain ⟨hd, hr⟩ := List.pairwise_cons.1 h
    simp only [Memory.put]
    split
    · next hlt =>
      refine List.pairwise_cons.2 ⟨fun c hc => ?_, h⟩
      rcases List.mem_cons.1 hc with rfl | hc
      · exact hlt
      · exact hlt.trans (hd c hc)
    · split
      · next heq => exact List.pairwise_cons.2 ⟨fun c hc => heq ▸ hd c hc, hr⟩
      · refine List.pairwise_cons.2 ⟨fun c hc => ?_, ih hr⟩
        rcases Memory.mem_put hc with rfl | hc
        · simp only; omega
        · exact hd c hc

/-- Writing a byte below address 4096 keeps the canonical form. -/
theorem Memory.write_wf {m : Memory} (h : m.wf) {a : Nat} (ha : a < 4096) (b : Byte) :
    (m.write a b).wf := by
  unfold Memory.write
  split
  · exact ⟨h.1.filter _, fun c hc => h.2 c (List.mem_of_mem_filter hc)⟩
  · next hb =>
    refine ⟨Memory.put_rising h.1, fun c hc => ?_⟩
    rcases Memory.mem_put hc with rfl | hc
    · exact ⟨ha, hb⟩
    · exact h.2 c hc

/-- The memory of State.reset is canonical. -/
theorem Memory.nil_wf : Memory.wf [] :=
  ⟨List.Pairwise.nil, fun _ h => absurd h List.not_mem_nil⟩

/-- Reading any address after writing a list of bytes. -/
theorem Memory.read_writeBytes (bytes : List Byte) (m : Memory) (start a : Nat) :
    (Memory.writeBytes start bytes m).read a =
      if start ≤ a ∧ a < start + bytes.length then bytes.getD (a - start) 0 else m.read a := by
  induction bytes generalizing m start with
  | nil => simp only [Memory.writeBytes, List.length_nil]; rw [if_neg]; omega
  | cons b bs ih =>
    rw [Memory.writeBytes, ih, List.length_cons]
    by_cases h1 : start + 1 ≤ a ∧ a < start + 1 + bs.length
    · rw [if_pos h1, if_pos (by omega), show a - start = (a - (start + 1)) + 1 by omega,
        List.getD_cons_succ]
    · rw [if_neg h1, Memory.read_write]
      by_cases h2 : a = start
      · subst h2; simp
      · rw [if_neg h2, if_neg (by omega)]

/-- Writing a list of bytes that ends below address 4096 keeps the canonical form. -/
theorem Memory.writeBytes_wf {m : Memory} (h : m.wf) {start : Nat} {bytes : List Byte}
    (hb : start + bytes.length ≤ 4096) : (Memory.writeBytes start bytes m).wf := by
  induction bytes generalizing m start with
  | nil => exact h
  | cons b bs ih =>
    rw [List.length_cons] at hb
    exact ih (Memory.write_wf h (by omega) b) (by omega)

/-- The block write keeps the canonical form. -/
theorem Memory.writeBlock_wf {m m' : Memory} (h : m.wf) {start : Nat} {bytes : List Byte}
    (hw : m.writeBlock start bytes = some m') : m'.wf := by
  unfold Memory.writeBlock at hw
  split at hw
  · cases hw
  · next hle => cases hw; exact Memory.writeBytes_wf h (Nat.not_lt.1 hle)

end Sys2Proof.Machine
end

