-- ==== Sys2Proof/Laws/State.lean ====
section
/-! SUPPORT. One lemma per field of State per shared update, true by rfl. -/

namespace Sys2Proof.Machine

/-! ### setReg -/

@[simp] theorem setReg_v (s : State) (x : Ix16) (b : Byte) : (s.setReg x b).v = s.v.set x.val b := rfl
@[simp] theorem setReg_i (s : State) (x : Ix16) (b : Byte) : (s.setReg x b).i = s.i := rfl
@[simp] theorem setReg_pc (s : State) (x : Ix16) (b : Byte) : (s.setReg x b).pc = s.pc := rfl
@[simp] theorem setReg_stack (s : State) (x : Ix16) (b : Byte) : (s.setReg x b).stack = s.stack := rfl
@[simp] theorem setReg_sp (s : State) (x : Ix16) (b : Byte) : (s.setReg x b).sp = s.sp := rfl
@[simp] theorem setReg_mem (s : State) (x : Ix16) (b : Byte) : (s.setReg x b).mem = s.mem := rfl
@[simp] theorem setReg_pix (s : State) (x : Ix16) (b : Byte) : (s.setReg x b).pix = s.pix := rfl
@[simp] theorem setReg_dt (s : State) (x : Ix16) (b : Byte) : (s.setReg x b).dt = s.dt := rfl
@[simp] theorem setReg_st (s : State) (x : Ix16) (b : Byte) : (s.setReg x b).st = s.st := rfl
@[simp] theorem setReg_quirks (s : State) (x : Ix16) (b : Byte) : (s.setReg x b).quirks = s.quirks := rfl
@[simp] theorem setReg_key (s : State) (x : Ix16) (b : Byte) : (s.setReg x b).key = s.key := rfl
@[simp] theorem setReg_wait (s : State) (x : Ix16) (b : Byte) : (s.setReg x b).wait = s.wait := rfl
@[simp] theorem setReg_fault (s : State) (x : Ix16) (b : Byte) : (s.setReg x b).fault = s.fault := rfl
@[simp] theorem setReg_faultPc (s : State) (x : Ix16) (b : Byte) : (s.setReg x b).faultPc = s.faultPc := rfl
@[simp] theorem setReg_cpuAcc (s : State) (x : Ix16) (b : Byte) : (s.setReg x b).cpuAcc = s.cpuAcc := rfl
@[simp] theorem setReg_timerAcc (s : State) (x : Ix16) (b : Byte) : (s.setReg x b).timerAcc = s.timerAcc := rfl
@[simp] theorem setReg_rates (s : State) (x : Ix16) (b : Byte) : (s.setReg x b).rates = s.rates := rfl
@[simp] theorem setReg_schedule (s : State) (x : Ix16) (b : Byte) : (s.setReg x b).schedule = s.schedule := rfl
@[simp] theorem setReg_rndIn (s : State) (x : Ix16) (b : Byte) : (s.setReg x b).rndIn = s.rndIn := rfl
@[simp] theorem setReg_rndCount (s : State) (x : Ix16) (b : Byte) : (s.setReg x b).rndCount = s.rndCount := rfl

/-! ### setPc -/

@[simp] theorem setPc_v (s : State) (a : Word) : (s.setPc a).v = s.v := rfl
@[simp] theorem setPc_i (s : State) (a : Word) : (s.setPc a).i = s.i := rfl
@[simp] theorem setPc_pc (s : State) (a : Word) : (s.setPc a).pc = a := rfl
@[simp] theorem setPc_stack (s : State) (a : Word) : (s.setPc a).stack = s.stack := rfl
@[simp] theorem setPc_sp (s : State) (a : Word) : (s.setPc a).sp = s.sp := rfl
@[simp] theorem setPc_mem (s : State) (a : Word) : (s.setPc a).mem = s.mem := rfl
@[simp] theorem setPc_pix (s : State) (a : Word) : (s.setPc a).pix = s.pix := rfl
@[simp] theorem setPc_dt (s : State) (a : Word) : (s.setPc a).dt = s.dt := rfl
@[simp] theorem setPc_st (s : State) (a : Word) : (s.setPc a).st = s.st := rfl
@[simp] theorem setPc_quirks (s : State) (a : Word) : (s.setPc a).quirks = s.quirks := rfl
@[simp] theorem setPc_key (s : State) (a : Word) : (s.setPc a).key = s.key := rfl
@[simp] theorem setPc_wait (s : State) (a : Word) : (s.setPc a).wait = s.wait := rfl
@[simp] theorem setPc_fault (s : State) (a : Word) : (s.setPc a).fault = s.fault := rfl
@[simp] theorem setPc_faultPc (s : State) (a : Word) : (s.setPc a).faultPc = s.faultPc := rfl
@[simp] theorem setPc_cpuAcc (s : State) (a : Word) : (s.setPc a).cpuAcc = s.cpuAcc := rfl
@[simp] theorem setPc_timerAcc (s : State) (a : Word) : (s.setPc a).timerAcc = s.timerAcc := rfl
@[simp] theorem setPc_rates (s : State) (a : Word) : (s.setPc a).rates = s.rates := rfl
@[simp] theorem setPc_schedule (s : State) (a : Word) : (s.setPc a).schedule = s.schedule := rfl
@[simp] theorem setPc_rndIn (s : State) (a : Word) : (s.setPc a).rndIn = s.rndIn := rfl
@[simp] theorem setPc_rndCount (s : State) (a : Word) : (s.setPc a).rndCount = s.rndCount := rfl

/-! ### raise -/

@[simp] theorem raise_v (s : State) (f : Fault) : (raise f s).v = s.v := rfl
@[simp] theorem raise_i (s : State) (f : Fault) : (raise f s).i = s.i := rfl
@[simp] theorem raise_pc (s : State) (f : Fault) : (raise f s).pc = s.pc := rfl
@[simp] theorem raise_stack (s : State) (f : Fault) : (raise f s).stack = s.stack := rfl
@[simp] theorem raise_sp (s : State) (f : Fault) : (raise f s).sp = s.sp := rfl
@[simp] theorem raise_mem (s : State) (f : Fault) : (raise f s).mem = s.mem := rfl
@[simp] theorem raise_pix (s : State) (f : Fault) : (raise f s).pix = s.pix := rfl
@[simp] theorem raise_dt (s : State) (f : Fault) : (raise f s).dt = s.dt := rfl
@[simp] theorem raise_st (s : State) (f : Fault) : (raise f s).st = s.st := rfl
@[simp] theorem raise_quirks (s : State) (f : Fault) : (raise f s).quirks = s.quirks := rfl
@[simp] theorem raise_key (s : State) (f : Fault) : (raise f s).key = s.key := rfl
@[simp] theorem raise_wait (s : State) (f : Fault) : (raise f s).wait = s.wait := rfl
@[simp] theorem raise_fault (s : State) (f : Fault) : (raise f s).fault = some f := rfl
@[simp] theorem raise_faultPc (s : State) (f : Fault) : (raise f s).faultPc = s.pc := rfl
@[simp] theorem raise_cpuAcc (s : State) (f : Fault) : (raise f s).cpuAcc = s.cpuAcc := rfl
@[simp] theorem raise_timerAcc (s : State) (f : Fault) : (raise f s).timerAcc = s.timerAcc := rfl
@[simp] theorem raise_rates (s : State) (f : Fault) : (raise f s).rates = s.rates := rfl
@[simp] theorem raise_schedule (s : State) (f : Fault) : (raise f s).schedule = s.schedule := rfl
@[simp] theorem raise_rndIn (s : State) (f : Fault) : (raise f s).rndIn = s.rndIn := rfl
@[simp] theorem raise_rndCount (s : State) (f : Fault) : (raise f s).rndCount = s.rndCount := rfl

/-! ### takeRnd -/

@[simp] theorem takeRnd_v (s : State) : s.takeRnd.v = s.v := rfl
@[simp] theorem takeRnd_i (s : State) : s.takeRnd.i = s.i := rfl
@[simp] theorem takeRnd_pc (s : State) : s.takeRnd.pc = s.pc := rfl
@[simp] theorem takeRnd_stack (s : State) : s.takeRnd.stack = s.stack := rfl
@[simp] theorem takeRnd_sp (s : State) : s.takeRnd.sp = s.sp := rfl
@[simp] theorem takeRnd_mem (s : State) : s.takeRnd.mem = s.mem := rfl
@[simp] theorem takeRnd_pix (s : State) : s.takeRnd.pix = s.pix := rfl
@[simp] theorem takeRnd_dt (s : State) : s.takeRnd.dt = s.dt := rfl
@[simp] theorem takeRnd_st (s : State) : s.takeRnd.st = s.st := rfl
@[simp] theorem takeRnd_quirks (s : State) : s.takeRnd.quirks = s.quirks := rfl
@[simp] theorem takeRnd_key (s : State) : s.takeRnd.key = s.key := rfl
@[simp] theorem takeRnd_wait (s : State) : s.takeRnd.wait = s.wait := rfl
@[simp] theorem takeRnd_fault (s : State) : s.takeRnd.fault = s.fault := rfl
@[simp] theorem takeRnd_faultPc (s : State) : s.takeRnd.faultPc = s.faultPc := rfl
@[simp] theorem takeRnd_cpuAcc (s : State) : s.takeRnd.cpuAcc = s.cpuAcc := rfl
@[simp] theorem takeRnd_timerAcc (s : State) : s.takeRnd.timerAcc = s.timerAcc := rfl
@[simp] theorem takeRnd_rates (s : State) : s.takeRnd.rates = s.rates := rfl
@[simp] theorem takeRnd_schedule (s : State) : s.takeRnd.schedule = s.schedule := rfl
@[simp] theorem takeRnd_rndIn (s : State) : s.takeRnd.rndIn = s.rndIn.tail := rfl
@[simp] theorem takeRnd_rndCount (s : State) : s.takeRnd.rndCount = s.rndCount + 1 := rfl

/-! ### blockStep -/

@[simp] theorem blockStep_v (s : State) : (blockStep s).v = s.v := rfl
@[simp] theorem blockStep_i (s : State) : (blockStep s).i = if s.quirks.incI then s.i + 1 else s.i := rfl
@[simp] theorem blockStep_pc (s : State) : (blockStep s).pc = s.pc := rfl
@[simp] theorem blockStep_stack (s : State) : (blockStep s).stack = s.stack := rfl
@[simp] theorem blockStep_sp (s : State) : (blockStep s).sp = s.sp := rfl
@[simp] theorem blockStep_mem (s : State) : (blockStep s).mem = s.mem := rfl
@[simp] theorem blockStep_pix (s : State) : (blockStep s).pix = s.pix := rfl
@[simp] theorem blockStep_dt (s : State) : (blockStep s).dt = s.dt := rfl
@[simp] theorem blockStep_st (s : State) : (blockStep s).st = s.st := rfl
@[simp] theorem blockStep_quirks (s : State) : (blockStep s).quirks = s.quirks := rfl
@[simp] theorem blockStep_key (s : State) : (blockStep s).key = s.key := rfl
@[simp] theorem blockStep_wait (s : State) : (blockStep s).wait = s.wait := rfl
@[simp] theorem blockStep_fault (s : State) : (blockStep s).fault = s.fault := rfl
@[simp] theorem blockStep_faultPc (s : State) : (blockStep s).faultPc = s.faultPc := rfl
@[simp] theorem blockStep_cpuAcc (s : State) : (blockStep s).cpuAcc = s.cpuAcc := rfl
@[simp] theorem blockStep_timerAcc (s : State) : (blockStep s).timerAcc = s.timerAcc := rfl
@[simp] theorem blockStep_rates (s : State) : (blockStep s).rates = s.rates := rfl
@[simp] theorem blockStep_schedule (s : State) : (blockStep s).schedule = s.schedule := rfl
@[simp] theorem blockStep_rndIn (s : State) : (blockStep s).rndIn = s.rndIn := rfl
@[simp] theorem blockStep_rndCount (s : State) : (blockStep s).rndCount = s.rndCount := rfl

/-! ### setFlag -/

@[simp] theorem setFlag_v (s : State) (c : Bool) : (s.setFlag c).v = s.v.set VF.val (flagByte c) := rfl
@[simp] theorem setFlag_i (s : State) (c : Bool) : (s.setFlag c).i = s.i := rfl
@[simp] theorem setFlag_pc (s : State) (c : Bool) : (s.setFlag c).pc = s.pc := rfl
@[simp] theorem setFlag_stack (s : State) (c : Bool) : (s.setFlag c).stack = s.stack := rfl
@[simp] theorem setFlag_sp (s : State) (c : Bool) : (s.setFlag c).sp = s.sp := rfl
@[simp] theorem setFlag_mem (s : State) (c : Bool) : (s.setFlag c).mem = s.mem := rfl
@[simp] theorem setFlag_pix (s : State) (c : Bool) : (s.setFlag c).pix = s.pix := rfl
@[simp] theorem setFlag_dt (s : State) (c : Bool) : (s.setFlag c).dt = s.dt := rfl
@[simp] theorem setFlag_st (s : State) (c : Bool) : (s.setFlag c).st = s.st := rfl
@[simp] theorem setFlag_quirks (s : State) (c : Bool) : (s.setFlag c).quirks = s.quirks := rfl
@[simp] theorem setFlag_key (s : State) (c : Bool) : (s.setFlag c).key = s.key := rfl
@[simp] theorem setFlag_wait (s : State) (c : Bool) : (s.setFlag c).wait = s.wait := rfl
@[simp] theorem setFlag_fault (s : State) (c : Bool) : (s.setFlag c).fault = s.fault := rfl
@[simp] theorem setFlag_faultPc (s : State) (c : Bool) : (s.setFlag c).faultPc = s.faultPc := rfl
@[simp] theorem setFlag_cpuAcc (s : State) (c : Bool) : (s.setFlag c).cpuAcc = s.cpuAcc := rfl
@[simp] theorem setFlag_timerAcc (s : State) (c : Bool) : (s.setFlag c).timerAcc = s.timerAcc := rfl
@[simp] theorem setFlag_rates (s : State) (c : Bool) : (s.setFlag c).rates = s.rates := rfl
@[simp] theorem setFlag_schedule (s : State) (c : Bool) : (s.setFlag c).schedule = s.schedule := rfl
@[simp] theorem setFlag_rndIn (s : State) (c : Bool) : (s.setFlag c).rndIn = s.rndIn := rfl
@[simp] theorem setFlag_rndCount (s : State) (c : Bool) : (s.setFlag c).rndCount = s.rndCount := rfl

/-! ### setResult -/

@[simp] theorem setResult_v (s : State) (x : Ix16) (b : Byte) (c : Bool) : (setResult x b c s).v = (s.v.set x.val b).set VF.val (flagByte c) := rfl
@[simp] theorem setResult_i (s : State) (x : Ix16) (b : Byte) (c : Bool) : (setResult x b c s).i = s.i := rfl
@[simp] theorem setResult_pc (s : State) (x : Ix16) (b : Byte) (c : Bool) : (setResult x b c s).pc = s.pc := rfl
@[simp] theorem setResult_stack (s : State) (x : Ix16) (b : Byte) (c : Bool) : (setResult x b c s).stack = s.stack := rfl
@[simp] theorem setResult_sp (s : State) (x : Ix16) (b : Byte) (c : Bool) : (setResult x b c s).sp = s.sp := rfl
@[simp] theorem setResult_mem (s : State) (x : Ix16) (b : Byte) (c : Bool) : (setResult x b c s).mem = s.mem := rfl
@[simp] theorem setResult_pix (s : State) (x : Ix16) (b : Byte) (c : Bool) : (setResult x b c s).pix = s.pix := rfl
@[simp] theorem setResult_dt (s : State) (x : Ix16) (b : Byte) (c : Bool) : (setResult x b c s).dt = s.dt := rfl
@[simp] theorem setResult_st (s : State) (x : Ix16) (b : Byte) (c : Bool) : (setResult x b c s).st = s.st := rfl
@[simp] theorem setResult_quirks (s : State) (x : Ix16) (b : Byte) (c : Bool) : (setResult x b c s).quirks = s.quirks := rfl
@[simp] theorem setResult_key (s : State) (x : Ix16) (b : Byte) (c : Bool) : (setResult x b c s).key = s.key := rfl
@[simp] theorem setResult_wait (s : State) (x : Ix16) (b : Byte) (c : Bool) : (setResult x b c s).wait = s.wait := rfl
@[simp] theorem setResult_fault (s : State) (x : Ix16) (b : Byte) (c : Bool) : (setResult x b c s).fault = s.fault := rfl
@[simp] theorem setResult_faultPc (s : State) (x : Ix16) (b : Byte) (c : Bool) : (setResult x b c s).faultPc = s.faultPc := rfl
@[simp] theorem setResult_cpuAcc (s : State) (x : Ix16) (b : Byte) (c : Bool) : (setResult x b c s).cpuAcc = s.cpuAcc := rfl
@[simp] theorem setResult_timerAcc (s : State) (x : Ix16) (b : Byte) (c : Bool) : (setResult x b c s).timerAcc = s.timerAcc := rfl
@[simp] theorem setResult_rates (s : State) (x : Ix16) (b : Byte) (c : Bool) : (setResult x b c s).rates = s.rates := rfl
@[simp] theorem setResult_schedule (s : State) (x : Ix16) (b : Byte) (c : Bool) : (setResult x b c s).schedule = s.schedule := rfl
@[simp] theorem setResult_rndIn (s : State) (x : Ix16) (b : Byte) (c : Bool) : (setResult x b c s).rndIn = s.rndIn := rfl
@[simp] theorem setResult_rndCount (s : State) (x : Ix16) (b : Byte) (c : Bool) : (setResult x b c s).rndCount = s.rndCount := rfl

/-! ### skipIf -/

@[simp] theorem skipIf_v (s : State) (c : Bool) : (skipIf c s).v = s.v := rfl
@[simp] theorem skipIf_i (s : State) (c : Bool) : (skipIf c s).i = s.i := rfl
@[simp] theorem skipIf_pc (s : State) (c : Bool) : (skipIf c s).pc = if c then s.pc + 2 else s.pc := rfl
@[simp] theorem skipIf_stack (s : State) (c : Bool) : (skipIf c s).stack = s.stack := rfl
@[simp] theorem skipIf_sp (s : State) (c : Bool) : (skipIf c s).sp = s.sp := rfl
@[simp] theorem skipIf_mem (s : State) (c : Bool) : (skipIf c s).mem = s.mem := rfl
@[simp] theorem skipIf_pix (s : State) (c : Bool) : (skipIf c s).pix = s.pix := rfl
@[simp] theorem skipIf_dt (s : State) (c : Bool) : (skipIf c s).dt = s.dt := rfl
@[simp] theorem skipIf_st (s : State) (c : Bool) : (skipIf c s).st = s.st := rfl
@[simp] theorem skipIf_quirks (s : State) (c : Bool) : (skipIf c s).quirks = s.quirks := rfl
@[simp] theorem skipIf_key (s : State) (c : Bool) : (skipIf c s).key = s.key := rfl
@[simp] theorem skipIf_wait (s : State) (c : Bool) : (skipIf c s).wait = s.wait := rfl
@[simp] theorem skipIf_fault (s : State) (c : Bool) : (skipIf c s).fault = s.fault := rfl
@[simp] theorem skipIf_faultPc (s : State) (c : Bool) : (skipIf c s).faultPc = s.faultPc := rfl
@[simp] theorem skipIf_cpuAcc (s : State) (c : Bool) : (skipIf c s).cpuAcc = s.cpuAcc := rfl
@[simp] theorem skipIf_timerAcc (s : State) (c : Bool) : (skipIf c s).timerAcc = s.timerAcc := rfl
@[simp] theorem skipIf_rates (s : State) (c : Bool) : (skipIf c s).rates = s.rates := rfl
@[simp] theorem skipIf_schedule (s : State) (c : Bool) : (skipIf c s).schedule = s.schedule := rfl
@[simp] theorem skipIf_rndIn (s : State) (c : Bool) : (skipIf c s).rndIn = s.rndIn := rfl
@[simp] theorem skipIf_rndCount (s : State) (c : Bool) : (skipIf c s).rndCount = s.rndCount := rfl

/-! ### retry -/

@[simp] theorem retry_v (s : State) : (retry s).v = s.v := rfl
@[simp] theorem retry_i (s : State) : (retry s).i = s.i := rfl
@[simp] theorem retry_pc (s : State) : (retry s).pc = s.pc - 2 := rfl
@[simp] theorem retry_stack (s : State) : (retry s).stack = s.stack := rfl
@[simp] theorem retry_sp (s : State) : (retry s).sp = s.sp := rfl
@[simp] theorem retry_mem (s : State) : (retry s).mem = s.mem := rfl
@[simp] theorem retry_pix (s : State) : (retry s).pix = s.pix := rfl
@[simp] theorem retry_dt (s : State) : (retry s).dt = s.dt := rfl
@[simp] theorem retry_st (s : State) : (retry s).st = s.st := rfl
@[simp] theorem retry_quirks (s : State) : (retry s).quirks = s.quirks := rfl
@[simp] theorem retry_key (s : State) : (retry s).key = s.key := rfl
@[simp] theorem retry_wait (s : State) : (retry s).wait = s.wait := rfl
@[simp] theorem retry_fault (s : State) : (retry s).fault = s.fault := rfl
@[simp] theorem retry_faultPc (s : State) : (retry s).faultPc = s.faultPc := rfl
@[simp] theorem retry_cpuAcc (s : State) : (retry s).cpuAcc = s.cpuAcc := rfl
@[simp] theorem retry_timerAcc (s : State) : (retry s).timerAcc = s.timerAcc := rfl
@[simp] theorem retry_rates (s : State) : (retry s).rates = s.rates := rfl
@[simp] theorem retry_schedule (s : State) : (retry s).schedule = s.schedule := rfl
@[simp] theorem retry_rndIn (s : State) : (retry s).rndIn = s.rndIn := rfl
@[simp] theorem retry_rndCount (s : State) : (retry s).rndCount = s.rndCount := rfl

end Sys2Proof.Machine
end

