-- ==== Sys2Proof/Laws/Ops.lean ====
section
/-! SUPPORT. One lemma per shared operation that says once everything it can do. -/

namespace Sys2Proof.Machine

/-! ### Registers -/

theorem State.reg_eq (s : State) (x : Ix16) : s.reg x = s.v[x.val] := rfl

/-- Reading any register after writing one. -/
theorem State.reg_setReg (s : State) (x k : Ix16) (b : Byte) :
    (s.setReg x b).reg k = if k = x then b else s.reg k := by
  simp only [State.reg, setReg_v, Vector.getElem_set, Fin.val_inj]
  by_cases h : x = k <;> simp [h, eq_comm]

@[simp] theorem State.reg_setReg_same (s : State) (x : Ix16) (b : Byte) :
    (s.setReg x b).reg x = b := by simp [State.reg_setReg]

/-- Reading any register after a result and a flag were written: the flag is written last. -/
theorem State.reg_setResult (s : State) (x k : Ix16) (b : Byte) (c : Bool) :
    (setResult x b c s).reg k = if k = VF then flagByte c else if k = x then b else s.reg k := by
  simp [setResult, State.setFlag, State.reg_setReg]

theorem State.reg_setFlag (s : State) (k : Ix16) (c : Bool) :
    (s.setFlag c).reg k = if k = VF then flagByte c else s.reg k := by
  simp [State.setFlag, State.reg_setReg]

@[simp] theorem State.reg_setPc (s : State) (a : Word) (k : Ix16) : (s.setPc a).reg k = s.reg k := rfl
@[simp] theorem State.reg_skipIf (s : State) (c : Bool) (k : Ix16) : (skipIf c s).reg k = s.reg k := rfl
@[simp] theorem State.reg_retry (s : State) (k : Ix16) : (retry s).reg k = s.reg k := rfl
@[simp] theorem State.reg_raise (s : State) (f : Fault) (k : Ix16) : (raise f s).reg k = s.reg k := rfl
@[simp] theorem State.reg_takeRnd (s : State) (k : Ix16) : s.takeRnd.reg k = s.reg k := rfl
@[simp] theorem State.reg_blockStep (s : State) (k : Ix16) : (blockStep s).reg k = s.reg k := rfl

@[simp] theorem flagByte_true : flagByte true = 1 := rfl
@[simp] theorem flagByte_false : flagByte false = 0 := rfl

/-! ### Flow -/

@[simp] theorem Flow.going_andThen (s : State) (f : State → Flow) : (Flow.going s).andThen f = f s := rfl
@[simp] theorem Flow.raised_andThen (s : State) (f : State → Flow) :
    (Flow.raised s).andThen f = .raised s := rfl
@[simp] theorem Flow.outcome_going (s : State) : (Flow.going s).outcome = .next s := rfl
@[simp] theorem Flow.outcome_raised (s : State) : (Flow.raised s).outcome = .next s := rfl

/-- The state a flow has reached. -/
def Flow.state : Flow → State
  | .going s => s
  | .raised s => s

/-- The end of the execute phase is always a next state. -/
theorem Flow.outcome_eq (f : Flow) : f.outcome = .next f.state := by cases f <;> rfl

/-! ### Stack -/

theorem push_going {s : State} (h : s.sp.val < 16) (v : Word) :
    push v s = .going { s with stack := s.stack.set s.sp.val v, sp := ⟨s.sp.val + 1, by omega⟩ } :=
  dif_pos h

theorem push_full {s : State} (h : s.sp.val = 16) (v : Word) :
    push v s = .raised (raise .stackOverflow s) := dif_neg (by omega)

theorem pop_going {s : State} (h : 0 < s.sp.val) (use : Word → State → Flow) :
    pop use s = use s.stack[s.sp.val - 1] { s with sp := ⟨s.sp.val - 1, by omega⟩ } := dif_pos h

theorem pop_empty {s : State} (h : s.sp.val = 0) (use : Word → State → Flow) :
    pop use s = .raised (raise .stackUnderflow s) := dif_neg (by omega)

/-! ### Data memory -/

theorem memRead_inside {a : Nat} (h : a ≤ 4095) (use : Byte → State → Flow) (s : State) :
    memRead a use s = use (s.mem.read a) s := if_neg (by omega)

theorem memRead_outside {a : Nat} (h : 4095 < a) (use : Byte → State → Flow) (s : State) :
    memRead a use s = .raised (raise .memReadOutOfBounds s) := if_pos h

theorem memWrite_inside {a : Nat} (h : a ≤ 4095) (b : Byte) (s : State) :
    memWrite a b s = .going { s with mem := s.mem.write a b } := if_neg (by omega)

theorem memWrite_outside {a : Nat} (h : 4095 < a) (b : Byte) (s : State) :
    memWrite a b s = .raised (raise .memWriteOutOfBounds s) := if_pos h

/-! ### Keys -/

theorem withKey_inside {b : Byte} (h : b.toNat ≤ 15) (use : Ix16 → State → Flow) (s : State) :
    withKey b use s = use ⟨b.toNat, by omega⟩ s := dif_pos h

theorem withKey_outside {b : Byte} (h : 15 < b.toNat) (use : Ix16 → State → Flow) (s : State) :
    withKey b use s = .raised (raise .keyIndexOutOfRange s) := dif_neg (by omega)

/-! ### Display -/

theorem Display.pixel_setPixel (d : Display) (y y' : Fin 32) (x x' : Fin 64) (b : Bool) :
    (d.setPixel y x b).pixel y' x' = if y' = y ∧ x' = x then b else d.pixel y' x' := by
  simp only [Display.pixel, Display.setPixel, Vector.getElem_set, Fin.val_inj]
  by_cases hy : y = y'
  · subst hy
    by_cases hx : x = x'
    · subst hx; simp
    · have hv : x.val ≠ x'.val := fun e => hx (Fin.ext e)
      simp [hv, Ne.symm hx]
  · simp [hy, Ne.symm hy]

@[simp] theorem Display.pixel_clear (y : Fin 32) (x : Fin 64) : Display.clear.pixel y x = false := by
  simp [Display.pixel, Display.clear]

/-- Two displays with the same pixels are equal. -/
theorem Display.ext {d e : Display} (h : ∀ y x, d.pixel y x = e.pixel y x) : d = e := by
  apply Vector.ext
  intro y hy
  apply Vector.ext
  intro x hx
  exact h ⟨y, hy⟩ ⟨x, hx⟩

/-- What one sprite bit does to a pixel: it inverts the pixel it covers and no other. -/
theorem pixel_drawBit (y : Fin 32) (x : Nat) (on : Bool) (acc : Display × Bool) (y' : Fin 32)
    (x' : Fin 64) : (drawBit y x on acc).1.pixel y' x' =
      (acc.1.pixel y' x' ^^ (on && decide (y' = y ∧ x'.val = x))) := by
  unfold drawBit
  split
  · next h =>
    split
    · next hon =>
      simp only [Display.pixel_setPixel, hon, Bool.true_and]
      by_cases hc : y' = y ∧ x'.val = x
      · obtain ⟨rfl, rfl⟩ := hc; simp
      · rw [if_neg fun e => hc ⟨e.1, by rw [e.2]⟩]; simp [hc]
    · next hon => simp [hon]
  · next h =>
    have : ¬ (x'.val = x) := by omega
    simp [this]

/-- What one sprite bit does to the collision mark: it raises it when it covers a set pixel. -/
theorem mark_drawBit (y : Fin 32) (x : Nat) (on : Bool) (acc : Display × Bool) :
    (drawBit y x on acc).2 = true ↔
      acc.2 = true ∨ on = true ∧ ∃ x' : Fin 64, x'.val = x ∧ acc.1.pixel y x' = true := by
  unfold drawBit
  split
  · next h =>
    cases on <;> simp
    constructor
    · rintro (h' | h')
      · exact .inl h'
      · exact .inr ⟨⟨x, by omega⟩, rfl, h'⟩
    · rintro (h' | ⟨x', rfl, h'⟩)
      · exact .inl h'
      · exact .inr h'
  · next h =>
    have : ∀ x' : Fin 64, ¬ (x'.val = x) := fun x' => by omega
    simp [this]

end Sys2Proof.Machine
end

