-- ==== Sys2Proof/Laws/Blocks.lean ====
section
/-! SUPPORT. What the block store and the block load can do: one lemma each for a run of registers. -/

namespace Sys2Proof.Machine

/-- Before register j of a block move that began at address base, I has moved j times under Q.inc_i. -/
def AtBlock (base j : Nat) (s : State) : Prop :=
  s.i.toNat = if s.quirks.incI then base + j else base

theorem AtBlock.addr {base : Nat} {k : Ix16} {s : State} (h : AtBlock base k.val s) :
    blockAddr k s = base + k.val := by
  unfold AtBlock at h
  unfold blockAddr dataAddr
  split <;> simp_all

theorem AtBlock.step {base j : Nat} {s : State} (h : AtBlock base j s) (hj : base + j ≤ 4095) :
    AtBlock base (j + 1) (blockStep s) := by
  unfold AtBlock at *
  show (if s.quirks.incI then s.i + 1 else s.i).toNat = if s.quirks.incI then base + (j + 1) else base
  by_cases hq : s.quirks.incI = true
  · rw [if_pos hq] at h
    rw [if_pos hq, if_pos hq, BitVec.toNat_add, h]
    simp; omega
  · rw [if_neg hq] at h
    rw [if_neg hq, if_neg hq, h]

/-- The registers of a block move are consecutive and start at V0. -/
theorem regsUpTo_val (x : Ix16) : (regsUpTo x).map Fin.val = List.range' 0 (x.val + 1) := by
  revert x; decide

@[simp] theorem regsUpTo_length (x : Ix16) : (regsUpTo x).length = x.val + 1 := by
  simpa using congrArg List.length (regsUpTo_val x)

@[simp] theorem mem_regsUpTo {x k : Ix16} : k ∈ regsUpTo x ↔ k ≤ x := by simp [regsUpTo]

theorem regsUpTo_ne_nil (x : Ix16) : regsUpTo x ≠ [] := fun h => by
  simpa [h] using regsUpTo_length x

/-- A block move begins at I. -/
theorem AtBlock.start (s : State) : AtBlock s.i.toNat 0 s := by
  unfold AtBlock; split <;> rfl

/-- How far a block move over n registers from register j on gets below address 4096. -/
def blockCount (base j n : Nat) : Nat := min n (4096 - (base + j))

theorem blockCount_stop {base j n : Nat} (h : 4095 < base + j) : blockCount base j n = 0 := by
  unfold blockCount; omega

theorem blockCount_go {base j n : Nat} (h : base + j ≤ 4095) :
    blockCount base j (n + 1) = blockCount base (j + 1) n + 1 := by
  unfold blockCount; omega

/-- What a block store does: the bytes below address 4096 are written in order, I has moved past them
under Q.inc_i, nothing else changes, and it faults unless all of them are. -/
theorem blockStore_spec (ks : List Ix16) (base j : Nat) (s : State)
    (hks : ks.map Fin.val = List.range' j ks.length) (hs : AtBlock base j s) :
    ∃ t : State,
      blockStore ks s = (if base + j + ks.length ≤ 4096 ∨ ks = [] then .going t
        else .raised (raise .memWriteOutOfBounds t)) ∧
      t = { s with mem := t.mem, i := t.i } ∧
      AtBlock base (j + blockCount base j ks.length) t ∧
      (∀ k ∈ ks, base + k.val ≤ 4095 → t.mem.read (base + k.val) = s.reg k) ∧
      ∀ a, (∀ k ∈ ks, base + k.val ≤ 4095 → a ≠ base + k.val) → t.mem.read a = s.mem.read a := by
  induction ks generalizing j s with
  | nil => exact ⟨s, by simp [blockStore], rfl, by simpa [blockCount] using hs, by simp, by simp⟩
  | cons k ks ih =>
    rw [List.length_cons, List.range'_succ, List.map_cons] at hks
    obtain ⟨hk, hks⟩ := List.cons.inj hks
    subst hk
    rw [List.length_cons]
    by_cases hin : base + k.val ≤ 4095
    · let s1 := blockStep { s with mem := s.mem.write (base + k.val) (s.reg k) }
      have hs1 : AtBlock base (k.val + 1) s1 :=
        AtBlock.step (s := { s with mem := s.mem.write (base + k.val) (s.reg k) }) hs hin
      obtain ⟨t, h1, h2, h3, h4, h5⟩ := ih (k.val + 1) s1 hks hs1
      have hlater : ∀ k' ∈ ks, k.val < k'.val := by
        intro k' hk'
        have := List.mem_map_of_mem (f := Fin.val) hk'
        rw [hks, List.mem_range'_1] at this
        omega
      refine ⟨t, ?_, ?_, ?_, ?_, ?_⟩
      · have e : blockStore (k :: ks) s = blockStore ks s1 := by
          rw [blockStore, hs.addr, memWrite_inside hin]; rfl
        rw [e, h1]
        have : (base + (k.val + 1) + ks.length ≤ 4096 ∨ ks = []) ↔
            (base + k.val + (ks.length + 1) ≤ 4096 ∨ k :: ks = []) := by
          constructor
          · rintro (h | h)
            · left; omega
            · left; subst h; simp; omega
          · rintro (h | h)
            · left; omega
            · cases h
        simp only [this]
      · rw [h2]; rfl
      · rw [blockCount_go hin, show k.val + (blockCount base (k.val + 1) ks.length + 1) =
          k.val + 1 + blockCount base (k.val + 1) ks.length by omega]
        exact h3
      · intro k' hk' hk'in
        rcases List.mem_cons.1 hk' with rfl | hk'
        · rw [h5 _ fun k'' hk'' _ e => ?_]
          · exact Memory.read_write_same _ _ _
          · have := hlater k'' hk''; omega
        · exact (h4 k' hk' hk'in).trans rfl
      · intro a ha
        rw [h5 a fun k' hk' hi => ha k' (List.mem_cons_of_mem _ hk') hi]
        exact Memory.read_write_other _ (ha k List.mem_cons_self hin) _
    · refine ⟨s, ?_, rfl, ?_, ?_, fun _ _ => rfl⟩
      · rw [blockStore, hs.addr, memWrite_outside (by omega), Flow.raised_andThen, if_neg]
        rintro (h | h)
        · omega
        · cases h
      · rw [blockCount_stop (by omega)]; exact hs
      · intro k' hk' hk'in
        rcases List.mem_cons.1 hk' with rfl | hk'
        · exact absurd hk'in hin
        · have := List.mem_map_of_mem (f := Fin.val) hk'
          rw [hks, List.mem_range'_1] at this
          omega

/-- A block store keeps the canonical form of memory. -/
theorem blockStore_wf (ks : List Ix16) (s : State) (h : s.mem.wf) : (blockStore ks s).state.mem.wf := by
  induction ks generalizing s with
  | nil => exact h
  | cons k ks ih =>
    rw [blockStore]
    by_cases ha : blockAddr k s ≤ 4095
    · rw [memWrite_inside ha, Flow.going_andThen]
      exact ih _ (Memory.write_wf h (Nat.lt_succ_of_le ha) _)
    · rw [memWrite_outside (by omega)]
      exact h

/-- What a block load does: the registers whose byte lies below address 4096 are loaded in order, I has
moved past them under Q.inc_i, nothing else changes, and it faults unless all of them are. -/
theorem blockLoad_spec (ks : List Ix16) (base j : Nat) (s : State)
    (hks : ks.map Fin.val = List.range' j ks.length) (hs : AtBlock base j s) :
    ∃ t : State,
      blockLoad ks s = (if base + j + ks.length ≤ 4096 ∨ ks = [] then .going t
        else .raised (raise .memReadOutOfBounds t)) ∧
      t = { s with v := t.v, i := t.i } ∧
      AtBlock base (j + blockCount base j ks.length) t ∧
      (∀ k ∈ ks, base + k.val ≤ 4095 → t.reg k = s.mem.read (base + k.val)) ∧
      ∀ k, ¬ (k ∈ ks ∧ base + k.val ≤ 4095) → t.reg k = s.reg k := by
  induction ks generalizing j s with
  | nil => exact ⟨s, by simp [blockLoad], rfl, by simpa [blockCount] using hs, by simp, by simp⟩
  | cons k ks ih =>
    rw [List.length_cons, List.range'_succ, List.map_cons] at hks
    obtain ⟨hk, hks⟩ := List.cons.inj hks
    subst hk
    rw [List.length_cons]
    by_cases hin : base + k.val ≤ 4095
    · let s1 := blockStep (s.setReg k (s.mem.read (base + k.val)))
      have hs1 : AtBlock base (k.val + 1) s1 :=
        AtBlock.step (s := s.setReg k (s.mem.read (base + k.val))) hs hin
      obtain ⟨t, h1, h2, h3, h4, h5⟩ := ih (k.val + 1) s1 hks hs1
      have hlater : k ∉ ks := by
        intro hk'
        have := List.mem_map_of_mem (f := Fin.val) hk'
        rw [hks, List.mem_range'_1] at this
        omega
      refine ⟨t, ?_, ?_, ?_, ?_, ?_⟩
      · have e : blockLoad (k :: ks) s = blockLoad ks s1 := by
          rw [blockLoad, hs.addr, memRead_inside hin]
        rw [e, h1]
        have : (base + (k.val + 1) + ks.length ≤ 4096 ∨ ks = []) ↔
            (base + k.val + (ks.length + 1) ≤ 4096 ∨ k :: ks = []) := by
          constructor
          · rintro (h | h)
            · left; omega
            · left; subst h; simp; omega
          · rintro (h | h)
            · left; omega
            · cases h
        simp only [this]
      · rw [h2]; rfl
      · rw [blockCount_go hin, show k.val + (blockCount base (k.val + 1) ks.length + 1) =
          k.val + 1 + blockCount base (k.val + 1) ks.length by omega]
        exact h3
      · intro k' hk' hk'in
        rcases List.mem_cons.1 hk' with rfl | hk'
        · rw [h5 k' fun h => hlater h.1]
          exact State.reg_setReg_same _ _ _
        · exact (h4 k' hk' hk'in).trans rfl
      · intro k' hk'
        rw [h5 k' fun h => hk' ⟨List.mem_cons_of_mem _ h.1, h.2⟩]
        have : k ≠ k' := by rintro rfl; exact hk' ⟨List.mem_cons_self, hin⟩
        simp [s1, State.reg_setReg, Ne.symm this]
    · refine ⟨s, ?_, rfl, ?_, ?_, fun _ _ => rfl⟩
      · rw [blockLoad, hs.addr, memRead_outside (by omega), if_neg]
        rintro (h | h)
        · omega
        · cases h
      · rw [blockCount_stop (by omega)]; exact hs
      · intro k' hk' hk'in
        rcases List.mem_cons.1 hk' with rfl | hk'
        · exact absurd hk'in hin
        · have := List.mem_map_of_mem (f := Fin.val) hk'
          rw [hks, List.mem_range'_1] at this
          omega

end Sys2Proof.Machine
end

