-- ==== Sys2Proof/Laws/Decode.lean ====
section
/-! SUPPORT. The fields of assembled words, and the bytes of a word. -/

namespace Sys2Proof

@[simp] theorem toFin_nibble (k : Fin 16) : (nibble k).toFin = k := rfl

/-! ### Fields of each format -/

@[simp] theorem opField_wordNNN (op : BitVec 4) (a : Addr12) : opField (wordNNN op a) = op.toNat :=
  congrArg BitVec.toNat BitVec.extractLsb'_append_eq_left

@[simp] theorem nnnField_wordNNN (op : BitVec 4) (a : Addr12) : nnnField (wordNNN op a) = a :=
  BitVec.extractLsb'_append_eq_right

theorem wordXNN_eq (op : BitVec 4) (x : Ix16) (nn : Byte) :
    wordXNN op x nn = wordNNN op (nibble x ++ nn) := by
  unfold wordXNN wordNNN
  ext k hk
  simp only [BitVec.getElem_append]
  split_ifs <;> first | rfl | omega

theorem wordXYN_eq (op : BitVec 4) (x y : Ix16) (n : BitVec 4) :
    wordXYN op x y n = wordXNN op x (nibble y ++ n) := by
  unfold wordXNN wordXYN
  ext k hk
  simp only [BitVec.getElem_append]
  split_ifs <;> first | rfl | omega

@[simp] theorem opField_wordXNN (op : BitVec 4) (x : Ix16) (nn : Byte) :
    opField (wordXNN op x nn) = op.toNat := by rw [wordXNN_eq, opField_wordNNN]

@[simp] theorem xField_wordXNN (op : BitVec 4) (x : Ix16) (nn : Byte) :
    xField (wordXNN op x nn) = x := by
  have h : (op ++ nibble x ++ nn).extractLsb' 8 4 = nibble x := by
    ext k hk
    rw [BitVec.getElem_extractLsb', BitVec.getLsbD_append, if_neg (by omega),
      BitVec.getLsbD_append, if_pos (by omega), ← BitVec.getLsbD_eq_getElem]
    congr 1; omega
  exact congrArg BitVec.toFin h

@[simp] theorem nnField_wordXNN (op : BitVec 4) (x : Ix16) (nn : Byte) :
    nnField (wordXNN op x nn) = nn := BitVec.extractLsb'_append_eq_right

@[simp] theorem opField_wordXYN (op : BitVec 4) (x y : Ix16) (n : BitVec 4) :
    opField (wordXYN op x y n) = op.toNat := by rw [wordXYN_eq, opField_wordXNN]

@[simp] theorem xField_wordXYN (op : BitVec 4) (x y : Ix16) (n : BitVec 4) :
    xField (wordXYN op x y n) = x := by rw [wordXYN_eq, xField_wordXNN]

@[simp] theorem yField_wordXYN (op : BitVec 4) (x y : Ix16) (n : BitVec 4) :
    yField (wordXYN op x y n) = y := by
  have h : (op ++ nibble x ++ nibble y ++ n).extractLsb' 4 4 = nibble y := by
    ext k hk
    rw [BitVec.getElem_extractLsb', BitVec.getLsbD_append, if_neg (by omega),
      BitVec.getLsbD_append, if_pos (by omega), ← BitVec.getLsbD_eq_getElem]
    congr 1; omega
  exact congrArg BitVec.toFin h

@[simp] theorem nField_wordXYN (op : BitVec 4) (x y : Ix16) (n : BitVec 4) :
    nField (wordXYN op x y n) = n.toFin := congrArg BitVec.toFin BitVec.extractLsb'_append_eq_right

/-! ### A word from its fields -/

theorem wordNNN_fields (w : Word) : wordNNN (w.extractLsb' 12 4) (nnnField w) = w := by
  unfold wordNNN nnnField
  ext k hk
  simp only [BitVec.getElem_append, BitVec.getElem_extractLsb']
  split <;> (simp [← BitVec.getLsbD_eq_getElem] <;> congr 1 <;> omega)

theorem wordXNN_fields (w : Word) : wordXNN (w.extractLsb' 12 4) (xField w) (nnField w) = w := by
  unfold wordXNN xField nnField nibble
  ext k hk
  simp only [BitVec.getElem_append, BitVec.getElem_extractLsb', BitVec.ofFin_toFin]
  split_ifs <;> (simp [← BitVec.getLsbD_eq_getElem] <;> congr 1 <;> omega)

theorem wordXYN_fields (w : Word) :
    wordXYN (w.extractLsb' 12 4) (xField w) (yField w) (w.extractLsb' 0 4) = w := by
  unfold wordXYN xField yField nibble
  ext k hk
  simp only [BitVec.getElem_append, BitVec.getElem_extractLsb', BitVec.ofFin_toFin]
  split_ifs <;> (simp [← BitVec.getLsbD_eq_getElem] <;> congr 1 <;> omega)

/-! ### Fields as numbers -/

theorem opField_eq (w : Word) : opField w = w.toNat / 0x1000 := by
  have := w.isLt
  simp [opField, BitVec.extractLsb'_toNat, Nat.shiftRight_eq_div_pow]
  omega

theorem nField_eq (w : Word) : (nField w).val = w.toNat % 0x10 := by
  simp [nField]

theorem nnField_eq (w : Word) : (nnField w).toNat = w.toNat % 0x100 := by
  simp [nnField, BitVec.extractLsb'_toNat]

/-- Outside group 0 the word is neither of the two whole-word opcodes. -/
theorem ne_cls_of_opField {w : Word} (h : opField w ≠ 0) : w ≠ 0x00E0#16 := by
  rintro rfl
  exact h (by decide)

/-! ### Bytes -/

@[simp] theorem joinBytes_hi_lo (w : Word) : joinBytes (hiByte w) (loByte w) = w := by
  unfold joinBytes hiByte loByte
  ext k hk
  simp only [BitVec.getElem_append, BitVec.getElem_extractLsb']
  split <;> (simp [← BitVec.getLsbD_eq_getElem] <;> congr 1 <;> omega)

theorem decode_cons_cons (hi lo : Byte) (rest : List Byte) :
    decode (hi :: lo :: rest) = .ok (decodeWord (joinBytes hi lo), rest) := rfl

theorem decodeTableWord_eq (nbits w : Nat) :
    decodeTableWord nbits w = some (decodeWord (tableWord nbits w)) := by
  simp [decodeTableWord, decode_cons_cons]

end Sys2Proof
end

