-- ==== Sys2Proof/Laws/Drawing.lean ====
section
/-! SUPPORT. What drawing a sprite does, pixel by pixel: each pixel is inverted exactly if a set sprite bit
covers it, and the collision mark is raised exactly if such a pixel was set. -/

namespace Sys2Proof.Machine

/-- DRW's check of its N byte addresses. -/
theorem spriteOutside_iff (n : Fin 16) (s : State) :
    spriteOutside n s = true ↔ 1 ≤ n.val ∧ 4096 < s.i.toNat + n.val := by
  unfold spriteOutside
  rw [Bool.and_eq_true, decide_eq_true_iff, decide_eq_true_iff]
  unfold dataAddr
  omega

/-- Column x' lies under a set bit among the first n columns of a row drawn at x0. -/
def rowBit (on : Nat → Bool) (x0 n x' : Nat) : Bool := decide (x0 ≤ x' ∧ x' < x0 + n) && on (x' - x0)

theorem rowBit_zero (on : Nat → Bool) (x0 x' : Nat) : rowBit on x0 0 x' = false := by
  simp [rowBit]

theorem rowBit_succ (on : Nat → Bool) (x0 n x' : Nat) :
    rowBit on x0 (n + 1) x' = if x' = x0 + n then on n else rowBit on x0 n x' := by
  unfold rowBit
  split
  · next h => subst h; simp
  · next h =>
    congr 1
    exact decide_eq_decide.2 ⟨fun ⟨a, b⟩ => ⟨a, by omega⟩, fun ⟨a, b⟩ => ⟨a, by omega⟩⟩

theorem rowBit_at (on : Nat → Bool) (x0 n : Nat) : rowBit on x0 n (x0 + n) = false := by
  simp [rowBit]

/-- The first n columns of a sprite row. -/
theorem drawCols_spec (y : Fin 32) (x0 : Nat) (on : Nat → Bool) (n : Nat) (acc : Display × Bool) :
    let out := (List.range n).foldl (fun acc j => drawBit y (x0 + j) (on j) acc) acc
    (∀ y' x', out.1.pixel y' x' = (acc.1.pixel y' x' ^^ (decide (y' = y) && rowBit on x0 n x'.val))) ∧
    (out.2 = true ↔ acc.2 = true ∨
      ∃ x' : Fin 64, rowBit on x0 n x'.val = true ∧ acc.1.pixel y x' = true) := by
  induction n with
  | zero => simp [rowBit_zero]
  | succ n ih =>
    rw [List.range_succ, List.foldl_append, List.foldl_cons, List.foldl_nil]
    obtain ⟨ih1, ih2⟩ := ih
    refine ⟨fun y' x' => ?_, ?_⟩
    · rw [pixel_drawBit, ih1, rowBit_succ]
      by_cases hy : y' = y <;> by_cases hx : x'.val = x0 + n <;>
        simp [hy, hx, rowBit_at]
    · rw [mark_drawBit, ih2]
      simp only [ih1, rowBit_succ]
      constructor
      · rintro ((h | ⟨x', h1, h2⟩) | ⟨hon, x', h1, h2⟩)
        · exact .inl h
        · refine .inr ⟨x', ?_, h2⟩
          rw [if_neg, h1]
          intro e
          rw [e, rowBit_at] at h1
          cases h1
        · refine .inr ⟨x', by rw [if_pos h1, hon], ?_⟩
          simpa [h1, rowBit_at] using h2
      · rintro (h | ⟨x', h1, h2⟩)
        · exact .inl (.inl h)
        · split at h1
          · next hx => exact .inr ⟨h1, x', hx, by simpa [hx, rowBit_at] using h2⟩
          · exact .inl (.inr ⟨x', h1, h2⟩)

/-- The bit of a sprite byte drawn at column x0 that covers column x': bit 7 is the leftmost. -/
def byteBit (b : Byte) (x0 x' : Nat) : Bool := rowBit (fun j => b.getLsbD (7 - j)) x0 8 x'

theorem drawByte_spec (y : Fin 32) (x0 : Nat) (b : Byte) (acc : Display × Bool) :
    (∀ y' x', (drawByte y x0 b acc).1.pixel y' x' =
      (acc.1.pixel y' x' ^^ (decide (y' = y) && byteBit b x0 x'.val))) ∧
    ((drawByte y x0 b acc).2 = true ↔ acc.2 = true ∨
      ∃ x' : Fin 64, byteBit b x0 x'.val = true ∧ acc.1.pixel y x' = true) :=
  drawCols_spec y x0 (fun j => b.getLsbD (7 - j)) 8 acc

/-- The bit among the first n rows of a sprite at (x0, y0) that covers a pixel. -/
def coverBit (m : Memory) (base x0 y0 n : Nat) (y' : Fin 32) (x' : Fin 64) : Bool :=
  decide (y0 ≤ y'.val ∧ y'.val < y0 + n) && byteBit (m.read (base + (y'.val - y0))) x0 x'.val

theorem coverBit_zero (m : Memory) (base x0 y0 : Nat) (y' : Fin 32) (x' : Fin 64) :
    coverBit m base x0 y0 0 y' x' = false := by
  have : ¬ (y0 ≤ y'.val ∧ y'.val < y0 + 0) := by omega
  simp only [coverBit, decide_eq_false this, Bool.false_and]

theorem coverBit_succ (m : Memory) (base x0 y0 n : Nat) (y' : Fin 32) (x' : Fin 64) :
    coverBit m base x0 y0 (n + 1) y' x' =
      if y'.val = y0 + n then byteBit (m.read (base + n)) x0 x'.val
      else coverBit m base x0 y0 n y' x' := by
  unfold coverBit
  split
  · next h => simp [h]
  · next h =>
    congr 1
    exact decide_eq_decide.2 ⟨fun ⟨a, b⟩ => ⟨a, by omega⟩, fun ⟨a, b⟩ => ⟨a, by omega⟩⟩

theorem coverBit_at {m : Memory} {base x0 y0 n : Nat} {y' : Fin 32} (h : y'.val = y0 + n)
    (x' : Fin 64) : coverBit m base x0 y0 n y' x' = false := by
  simp [coverBit, h]

/-- What drawing a sprite does to every pixel and to the collision mark. -/
theorem drawSprite_spec (m : Memory) (base x0 y0 n : Nat) (d : Display) :
    (∀ y' x', (drawSprite m base x0 y0 n d).1.pixel y' x' =
      (d.pixel y' x' ^^ coverBit m base x0 y0 n y' x')) ∧
    ((drawSprite m base x0 y0 n d).2 = true ↔
      ∃ y' x', coverBit m base x0 y0 n y' x' = true ∧ d.pixel y' x' = true) := by
  unfold drawSprite
  induction n with
  | zero => simp [coverBit_zero]
  | succ n ih =>
    rw [List.range_succ, List.foldl_append, List.foldl_cons, List.foldl_nil]
    obtain ⟨ih1, ih2⟩ := ih
    generalize (List.range n).foldl (fun acc r => drawRow m base x0 y0 r acc) (d, false) = acc
      at ih1 ih2 ⊢
    unfold drawRow
    split
    · next hy =>
      obtain ⟨h1, h2⟩ := drawByte_spec ⟨y0 + n, by omega⟩ x0 (m.read (base + n)) acc
      refine ⟨fun y' x' => ?_, ?_⟩
      · rw [h1, ih1, coverBit_succ]
        by_cases hy' : y'.val = y0 + n
        · simp [hy', coverBit_at hy', Fin.ext_iff]
        · simp [hy', Fin.ext_iff]
      · rw [h2, ih2]
        simp only [ih1, coverBit_succ]
        constructor
        · rintro (⟨y', x', h3, h4⟩ | ⟨x', h3, h4⟩)
          · refine ⟨y', x', ?_, h4⟩
            rw [if_neg, h3]
            intro e
            rw [coverBit_at e] at h3
            cases h3
          · refine ⟨⟨y0 + n, by omega⟩, x', by rw [if_pos rfl, h3], ?_⟩
            rwa [coverBit_at rfl, Bool.xor_false] at h4
        · rintro ⟨y', x', h3, h4⟩
          split at h3
          · next hy' =>
            have e : (⟨y0 + n, by omega⟩ : Fin 32) = y' := Fin.ext hy'.symm
            refine .inr ⟨x', h3, ?_⟩
            rw [e, coverBit_at hy', Bool.xor_false, h4]
          · exact .inl ⟨y', x', h3, h4⟩
    · next hy =>
      have hne : ∀ y' : Fin 32, ¬ (y'.val = y0 + n) := fun y' => by omega
      exact ⟨fun y' x' => by rw [ih1, coverBit_succ, if_neg (hne y')],
        by rw [ih2]; simp only [coverBit_succ, if_neg (hne _)]⟩

end Sys2Proof.Machine
end

