-- ==== Sys2Proof/Laws/Exec.lean ====
section
/-! SUPPORT. One lemma per instruction whose meaning has more than one outcome: every next state it can
answer. The other instructions answer one state, by rfl. -/

namespace Sys2Proof.Machine

/-- CALL: a return address pushed and a jump, or StackOverflow. -/
theorem exec_call_cases (a : Addr12) (s : State) :
    (∃ h : s.sp.val < 16, exec (.call a) s = .next
      { s with stack := s.stack.set s.sp.val s.pc, sp := ⟨s.sp.val + 1, by omega⟩, pc := addrWord a }) ∨
    s.sp.val = 16 ∧ exec (.call a) s = .next (raise .stackOverflow s) := by
  by_cases h : s.sp.val < 16
  · exact .inl ⟨h, by simp only [exec, execCall, push_going h]; rfl⟩
  · have h : s.sp.val = 16 := by omega
    exact .inr ⟨h, by simp only [exec, execCall, push_full h]; rfl⟩

/-- RET: the top entry popped into PC, or StackUnderflow. -/
theorem exec_ret_cases (s : State) :
    (∃ k : Fin 16, s.sp.val = k.val + 1 ∧
      exec .ret s = .next { s with sp := k.castSucc, pc := s.stack[k.val] }) ∨
    s.sp.val = 0 ∧ exec .ret s = .next (raise .stackUnderflow s) := by
  by_cases h : 0 < s.sp.val
  · refine .inl ⟨⟨s.sp.val - 1, by omega⟩, by simp only; omega, ?_⟩
    simp only [exec, execRet, pop_going h]; rfl
  · have h : s.sp.val = 0 := by omega
    exact .inr ⟨h, by simp only [exec, execRet, pop_empty h]; rfl⟩

/-- SKP: a skip on the key the register names, or KeyIndexOutOfRange. -/
theorem exec_skp_cases (x : Ix16) (s : State) :
    (∃ k : Ix16, (s.reg x).toNat = k.val ∧ exec (.skp x) s = .next (skipIf (s.keyDown k) s)) ∨
    15 < (s.reg x).toNat ∧ exec (.skp x) s = .next (raise .keyIndexOutOfRange s) := by
  by_cases h : (s.reg x).toNat ≤ 15
  · exact .inl ⟨⟨(s.reg x).toNat, by omega⟩, rfl, by simp only [exec, execSkp, withKey_inside h]; rfl⟩
  · have h : 15 < (s.reg x).toNat := by omega
    exact .inr ⟨h, by simp only [exec, execSkp, withKey_outside h]; rfl⟩

/-- SKNP: a skip unless the key is down, or KeyIndexOutOfRange. -/
theorem exec_sknp_cases (x : Ix16) (s : State) :
    (∃ k : Ix16, (s.reg x).toNat = k.val ∧ exec (.sknp x) s = .next (skipIf (!s.keyDown k) s)) ∨
    15 < (s.reg x).toNat ∧ exec (.sknp x) s = .next (raise .keyIndexOutOfRange s) := by
  by_cases h : (s.reg x).toNat ≤ 15
  · exact .inl ⟨⟨(s.reg x).toNat, by omega⟩, rfl, by simp only [exec, execSknp, withKey_inside h]; rfl⟩
  · have h : 15 < (s.reg x).toNat := by omega
    exact .inr ⟨h, by simp only [exec, execSknp, withKey_outside h]; rfl⟩

/-- LD Vx, K: one more wait, perhaps with another latch, or the latched key into VX. -/
theorem exec_ldVxK_cases (x : Ix16) (s : State) :
    (∃ w, exec (.ldVxK x) s = .next (retry { s with wait := w })) ∨
    exec (.ldVxK x) s = .next (({ s with wait := ⟨false, s.wait.key⟩ } : State).setReg x
      (BitVec.ofNat 8 s.wait.key.val)) := by
  simp only [exec, execLdVxK, awaitRelease, awaitPress]
  split
  · split
    · exact .inl ⟨s.wait, rfl⟩
    · exact .inr rfl
  · split
    · exact .inl ⟨_, rfl⟩
    · exact .inl ⟨s.wait, rfl⟩

/-- DRW: pixels and VF from the sprite, or MemReadOutOfBounds. -/
theorem exec_drw_cases (x y : Ix16) (n : Fin 16) (s : State) :
    (¬ (1 ≤ n.val ∧ 4096 < s.i.toNat + n.val) ∧ exec (.drw x y n) s = .next
      (({ s with pix := (drawSprite s.mem (dataAddr s 0) (spriteCol (s.reg x)) (spriteRow (s.reg y))
        n.val s.pix).1 } : State).setFlag (drawSprite s.mem (dataAddr s 0) (spriteCol (s.reg x))
        (spriteRow (s.reg y)) n.val s.pix).2)) ∨
    (1 ≤ n.val ∧ 4096 < s.i.toNat + n.val) ∧
      exec (.drw x y n) s = .next (raise .memReadOutOfBounds s) := by
  simp only [exec, execDrw]
  split
  · next h => exact .inr ⟨(spriteOutside_iff n s).1 h, rfl⟩
  · next h => exact .inl ⟨fun e => h ((spriteOutside_iff n s).2 e), rfl⟩

/-- LD B: memory changes at the three addresses below 4096 only; the end is normal or
MemWriteOutOfBounds. -/
theorem exec_ldB_cases (x : Ix16) (s : State) : ∃ m : Memory,
    (s.i.toNat + 2 ≤ 4095 ∧ exec (.ldB x) s = .next { s with mem := m } ∨
      4095 < s.i.toNat + 2 ∧ exec (.ldB x) s = .next (raise .memWriteOutOfBounds { s with mem := m })) ∧
    (s.mem.wf → m.wf) ∧
    ∀ a, (∀ k, k ≤ 2 → dataAddr s k ≤ 4095 → a ≠ dataAddr s k) → m.read a = s.mem.read a := by
  simp only [exec, execLdB, dataAddr]
  by_cases h0 : s.i.toNat + 0 ≤ 4095
  · rw [memWrite_inside h0, Flow.going_andThen]
    have w0 := fun h : s.mem.wf => Memory.write_wf h (Nat.lt_succ_of_le h0) (hundreds (s.reg x))
    by_cases h1 : s.i.toNat + 1 ≤ 4095
    · rw [memWrite_inside h1, Flow.going_andThen]
      have w1 := fun h => Memory.write_wf (w0 h) (Nat.lt_succ_of_le h1) (tens (s.reg x))
      by_cases h2 : s.i.toNat + 2 ≤ 4095
      · rw [memWrite_inside h2]
        refine ⟨_, .inl ⟨h2, rfl⟩,
          fun h => Memory.write_wf (w1 h) (Nat.lt_succ_of_le h2) (ones (s.reg x)), fun a ha => ?_⟩
        rw [Memory.read_write_other _ (ha 2 (by omega) h2), Memory.read_write_other _ (ha 1 (by omega) h1),
          Memory.read_write_other _ (ha 0 (by omega) h0)]
      · rw [memWrite_outside (by omega)]
        refine ⟨_, .inr ⟨by omega, rfl⟩, w1, fun a ha => ?_⟩
        rw [Memory.read_write_other _ (ha 1 (by omega) h1), Memory.read_write_other _ (ha 0 (by omega) h0)]
    · rw [memWrite_outside (by omega)]
      refine ⟨_, .inr ⟨by omega, rfl⟩, w0, fun a ha => ?_⟩
      rw [Memory.read_write_other _ (ha 0 (by omega) h0)]
  · rw [memWrite_outside (by omega)]
    exact ⟨_, .inr ⟨by omega, rfl⟩, id, fun _ _ => rfl⟩

/-- LD [I]: memory changes at the block's addresses below 4096 only and I only under Q.inc_i; the end is
normal or MemWriteOutOfBounds. -/
theorem exec_storeRegs_cases (x : Ix16) (s : State) : ∃ (m : Memory) (i : Word),
    (s.i.toNat + x.val ≤ 4095 ∧ exec (.storeRegs x) s = .next { s with mem := m, i := i } ∨
      4095 < s.i.toNat + x.val ∧
        exec (.storeRegs x) s = .next (raise .memWriteOutOfBounds { s with mem := m, i := i })) ∧
    (s.mem.wf → m.wf) ∧ (s.quirks.incI = false → i = s.i) ∧
    ∀ a, (∀ k, k ≤ x.val → dataAddr s k ≤ 4095 → a ≠ dataAddr s k) → m.read a = s.mem.read a := by
  obtain ⟨t, h1, h2, h3, -, h5⟩ := blockStore_spec (regsUpTo x) s.i.toNat 0 s
    (by rw [regsUpTo_val, regsUpTo_length]) (AtBlock.start s)
  have hwf : s.mem.wf → t.mem.wf := by
    have := blockStore_wf (regsUpTo x) s
    rw [h1] at this
    split at this <;> exact this
  obtain ⟨m, i, rfl⟩ : ∃ m i, t = { s with mem := m, i := i } := ⟨_, _, h2⟩
  clear h2
  refine ⟨m, i, ?_, hwf, fun hq => ?_, fun a ha => h5 a fun k hk => ha k.val (mem_regsUpTo.1 hk)⟩
  · simp only [exec, execStoreRegs, h1, regsUpTo_length, regsUpTo_ne_nil, or_false]
    split
    · exact .inl ⟨by omega, rfl⟩
    · exact .inr ⟨by omega, rfl⟩
  · simp only [AtBlock, hq] at h3
    exact BitVec.eq_of_toNat_eq h3

/-- LD Vx, [I]: V0 to VX change only, and I only under Q.inc_i; the end is normal or
MemReadOutOfBounds. -/
theorem exec_loadRegs_cases (x : Ix16) (s : State) : ∃ (v : Vector Byte 16) (i : Word),
    (s.i.toNat + x.val ≤ 4095 ∧ exec (.loadRegs x) s = .next { s with v := v, i := i } ∨
      4095 < s.i.toNat + x.val ∧
        exec (.loadRegs x) s = .next (raise .memReadOutOfBounds { s with v := v, i := i })) ∧
    (s.quirks.incI = false → i = s.i) ∧
    ∀ k : Ix16, ¬ (k ≤ x ∧ dataAddr s k.val ≤ 4095) → v[k.val] = s.reg k := by
  obtain ⟨t, h1, h2, h3, -, h5⟩ := blockLoad_spec (regsUpTo x) s.i.toNat 0 s
    (by rw [regsUpTo_val, regsUpTo_length]) (AtBlock.start s)
  obtain ⟨v, i, rfl⟩ : ∃ v i, t = { s with v := v, i := i } := ⟨_, _, h2⟩
  clear h2
  refine ⟨v, i, ?_, fun hq => ?_, fun k hk => h5 k fun h => hk ⟨mem_regsUpTo.1 h.1, h.2⟩⟩
  · simp only [exec, execLoadRegs, h1, regsUpTo_length, regsUpTo_ne_nil, or_false]
    split
    · exact .inl ⟨by omega, rfl⟩
    · exact .inr ⟨by omega, rfl⟩
  · simp only [AtBlock, hq] at h3
    exact BitVec.eq_of_toNat_eq h3

end Sys2Proof.Machine
end

