-- ==== Sys2Proof/Laws/PerInstr.lean ====
section
/-! SUPPORT. For each instruction: its encoding has the fixed bits of its row of the opcode map
(spec/30_encoding.md R95), and is an unrecognised word (R99) exactly for NOP. -/

namespace Sys2Proof

/-! ### A word under each mask of the opcode map -/

theorem wordNNN_mask (op : BitVec 4) (a : Addr12) : wordNNN op a &&& 0xF000#16 = wordNNN op 0#12 := by
  show (op ++ a) &&& (0xF#4 ++ 0#12) = op ++ 0#12
  rw [BitVec.and_append, BitVec.and_zero]
  congr 1
  exact BitVec.and_allOnes

theorem wordXNN_maskOp (op : BitVec 4) (x : Ix16) (nn : Byte) :
    wordXNN op x nn &&& 0xF000#16 = wordNNN op 0#12 := by rw [wordXNN_eq, wordNNN_mask]

theorem wordXYN_maskOp (op : BitVec 4) (x y : Ix16) (n : BitVec 4) :
    wordXYN op x y n &&& 0xF000#16 = wordNNN op 0#12 := by rw [wordXYN_eq, wordXNN_maskOp]

theorem wordXNN_mask (op : BitVec 4) (x : Ix16) (nn : Byte) :
    wordXNN op x nn &&& 0xF0FF#16 = wordXNN op 0 nn := by
  show (op ++ nibble x ++ nn) &&& (0xF#4 ++ 0#4 ++ 0xFF#8) = op ++ 0#4 ++ nn
  rw [BitVec.and_append, BitVec.and_append, BitVec.and_zero, show 0xF#4 = BitVec.allOnes 4 from rfl,
    show 0xFF#8 = BitVec.allOnes 8 from rfl, BitVec.and_allOnes, BitVec.and_allOnes]

theorem wordXYN_mask (op : BitVec 4) (x y : Ix16) (n : BitVec 4) :
    wordXYN op x y n &&& 0xF00F#16 = wordXYN op 0 0 n := by
  show (op ++ nibble x ++ nibble y ++ n) &&& (0xF#4 ++ 0#4 ++ 0#4 ++ 0xF#4) = op ++ 0#4 ++ 0#4 ++ n
  rw [BitVec.and_append, BitVec.and_append, BitVec.and_append, BitVec.and_zero, BitVec.and_zero,
    show 0xF#4 = BitVec.allOnes 4 from rfl, BitVec.and_allOnes, BitVec.and_allOnes]

/-- R99 in terms of the fields. -/
theorem unrecognised_eq (w : Word) : unrecognised w =
    match opField w with
    | 0x0 => w.toNat != 0x00E0 && w.toNat != 0x00EE
    | 0x5 => (nField w).val != 0
    | 0x8 => [0x8, 0x9, 0xA, 0xB, 0xC, 0xD, 0xF].contains (nField w).val
    | 0x9 => (nField w).val != 0
    | 0xE => (nnField w).toNat != 0x9E && (nnField w).toNat != 0xA1
    | 0xF => !([0x07, 0x0A, 0x15, 0x18, 0x1E, 0x29, 0x33, 0x55, 0x65].contains (nnField w).toNat)
    | _ => false := by
  rw [opField_eq, nField_eq, nnField_eq]; rfl

/-- Two different rows of the opcode map differ in a bit that both of them fix. -/
theorem opRows_apart :
    opRows.Pairwise (fun r r' => (r.value ^^^ r'.value) &&& r.mask &&& r'.mask ≠ 0) := by
  decide +kernel

/-- Two rows that differ in a bit both fix hold no word in common (30_encoding.md R96). -/
theorem OpRow.hits_apart {r r' : OpRow} (h : (r.value ^^^ r'.value) &&& r.mask &&& r'.mask ≠ 0) (w : Word) :
    ¬ (w &&& r.mask = r.value ∧ w &&& r'.mask = r'.value) := by
  rintro ⟨h1, h2⟩
  apply h
  rw [← h1, ← h2]
  ext k hk
  simp only [BitVec.getElem_and, BitVec.getElem_xor]
  cases w[k] <;> cases r.mask[k] <;> cases r'.mask[k] <;> simp

/-! ### The family -/

/-- The row of an instruction's mnemonic holds its encoding, and the encoding is unrecognised exactly for
NOP. -/
def Laws.RowHit.Statement (i : Instr) : Prop :=
  i.wf = true →
    (∀ r ∈ opRows, r.mnemonic = i.mnemonic → encode i &&& r.mask = r.value) ∧
    (unrecognised (encode i) = true ↔ i.mnemonic = "NOP")

/-- The row of a mnemonic that the opcode map lists once. -/
theorem Laws.RowHit.of_row {i : Instr} (name : String) (v m : Word) (hi : i.mnemonic = name)
    (hrow : opRows.filter (fun r => r.mnemonic == name) = [⟨name, v, m⟩])
    (hit : encode i &&& m = v) (hu : unrecognised (encode i) = false) (hn : name ≠ "NOP") :
    Laws.RowHit.Statement i := by
  subst hi
  refine fun _ => ⟨fun r hr hm => ?_, by simp [hu, hn]⟩
  have : r ∈ opRows.filter (fun r => r.mnemonic == i.mnemonic) := by simp [hr, hm]
  rw [hrow, List.mem_singleton] at this
  subst this
  exact hit

theorem Laws.RowHit.cls : Laws.RowHit.Statement (.cls) :=
  Laws.RowHit.of_row "CLS" 0x00E0 0xFFFF rfl (by decide) (by decide)
    (by decide) (by decide)

theorem Laws.RowHit.ret : Laws.RowHit.Statement (.ret) :=
  Laws.RowHit.of_row "RET" 0x00EE 0xFFFF rfl (by decide) (by decide)
    (by decide) (by decide)

theorem Laws.RowHit.jp (nnn : Addr12) : Laws.RowHit.Statement (.jp nnn) :=
  Laws.RowHit.of_row "JP_NNN" 0x1000 0xF000 rfl (by decide) ((wordNNN_mask ..).trans (by decide))
    (by simp [unrecognised_eq, encode]) (by decide)

theorem Laws.RowHit.call (nnn : Addr12) : Laws.RowHit.Statement (.call nnn) :=
  Laws.RowHit.of_row "CALL_NNN" 0x2000 0xF000 rfl (by decide) ((wordNNN_mask ..).trans (by decide))
    (by simp [unrecognised_eq, encode]) (by decide)

theorem Laws.RowHit.seImm (x : Ix16) (nn : Byte) : Laws.RowHit.Statement (.seImm x nn) :=
  Laws.RowHit.of_row "SE_Vx__NN" 0x3000 0xF000 rfl (by decide) ((wordXNN_maskOp ..).trans (by decide))
    (by simp [unrecognised_eq, encode]) (by decide)

theorem Laws.RowHit.sneImm (x : Ix16) (nn : Byte) : Laws.RowHit.Statement (.sneImm x nn) :=
  Laws.RowHit.of_row "SNE_Vx__NN" 0x4000 0xF000 rfl (by decide) ((wordXNN_maskOp ..).trans (by decide))
    (by simp [unrecognised_eq, encode]) (by decide)

theorem Laws.RowHit.seReg (x y : Ix16) : Laws.RowHit.Statement (.seReg x y) :=
  Laws.RowHit.of_row "SE_Vx__Vy" 0x5000 0xF00F rfl (by decide) ((wordXYN_mask ..).trans (by decide))
    (by simp [unrecognised_eq, encode]) (by decide)

theorem Laws.RowHit.ldImm (x : Ix16) (nn : Byte) : Laws.RowHit.Statement (.ldImm x nn) :=
  Laws.RowHit.of_row "LD_Vx__NN" 0x6000 0xF000 rfl (by decide) ((wordXNN_maskOp ..).trans (by decide))
    (by simp [unrecognised_eq, encode]) (by decide)

theorem Laws.RowHit.addImm (x : Ix16) (nn : Byte) : Laws.RowHit.Statement (.addImm x nn) :=
  Laws.RowHit.of_row "ADD_Vx__NN" 0x7000 0xF000 rfl (by decide) ((wordXNN_maskOp ..).trans (by decide))
    (by simp [unrecognised_eq, encode]) (by decide)

theorem Laws.RowHit.ldReg (x y : Ix16) : Laws.RowHit.Statement (.ldReg x y) :=
  Laws.RowHit.of_row "LD_Vx__Vy" 0x8000 0xF00F rfl (by decide) ((wordXYN_mask ..).trans (by decide))
    (by simp [unrecognised_eq, encode]) (by decide)

theorem Laws.RowHit.orReg (x y : Ix16) : Laws.RowHit.Statement (.orReg x y) :=
  Laws.RowHit.of_row "OR_Vx__Vy" 0x8001 0xF00F rfl (by decide) ((wordXYN_mask ..).trans (by decide))
    (by simp [unrecognised_eq, encode]) (by decide)

theorem Laws.RowHit.andReg (x y : Ix16) : Laws.RowHit.Statement (.andReg x y) :=
  Laws.RowHit.of_row "AND_Vx__Vy" 0x8002 0xF00F rfl (by decide) ((wordXYN_mask ..).trans (by decide))
    (by simp [unrecognised_eq, encode]) (by decide)

theorem Laws.RowHit.xorReg (x y : Ix16) : Laws.RowHit.Statement (.xorReg x y) :=
  Laws.RowHit.of_row "XOR_Vx__Vy" 0x8003 0xF00F rfl (by decide) ((wordXYN_mask ..).trans (by decide))
    (by simp [unrecognised_eq, encode]) (by decide)

theorem Laws.RowHit.addReg (x y : Ix16) : Laws.RowHit.Statement (.addReg x y) :=
  Laws.RowHit.of_row "ADD_Vx__Vy" 0x8004 0xF00F rfl (by decide) ((wordXYN_mask ..).trans (by decide))
    (by simp [unrecognised_eq, encode]) (by decide)

theorem Laws.RowHit.subReg (x y : Ix16) : Laws.RowHit.Statement (.subReg x y) :=
  Laws.RowHit.of_row "SUB_Vx__Vy" 0x8005 0xF00F rfl (by decide) ((wordXYN_mask ..).trans (by decide))
    (by simp [unrecognised_eq, encode]) (by decide)

theorem Laws.RowHit.shr (x y : Ix16) : Laws.RowHit.Statement (.shr x y) :=
  Laws.RowHit.of_row "SHR_Vx____Vy" 0x8006 0xF00F rfl (by decide) ((wordXYN_mask ..).trans (by decide))
    (by simp [unrecognised_eq, encode]) (by decide)

theorem Laws.RowHit.subnReg (x y : Ix16) : Laws.RowHit.Statement (.subnReg x y) :=
  Laws.RowHit.of_row "SUBN_Vx__Vy" 0x8007 0xF00F rfl (by decide) ((wordXYN_mask ..).trans (by decide))
    (by simp [unrecognised_eq, encode]) (by decide)

theorem Laws.RowHit.shl (x y : Ix16) : Laws.RowHit.Statement (.shl x y) :=
  Laws.RowHit.of_row "SHL_Vx____Vy" 0x800E 0xF00F rfl (by decide) ((wordXYN_mask ..).trans (by decide))
    (by simp [unrecognised_eq, encode]) (by decide)

theorem Laws.RowHit.sneReg (x y : Ix16) : Laws.RowHit.Statement (.sneReg x y) :=
  Laws.RowHit.of_row "SNE_Vx__Vy" 0x9000 0xF00F rfl (by decide) ((wordXYN_mask ..).trans (by decide))
    (by simp [unrecognised_eq, encode]) (by decide)

theorem Laws.RowHit.ldI (nnn : Addr12) : Laws.RowHit.Statement (.ldI nnn) :=
  Laws.RowHit.of_row "LD_I__NNN" 0xA000 0xF000 rfl (by decide) ((wordNNN_mask ..).trans (by decide))
    (by simp [unrecognised_eq, encode]) (by decide)

theorem Laws.RowHit.jpV0 (nnn : Addr12) : Laws.RowHit.Statement (.jpV0 nnn) :=
  Laws.RowHit.of_row "JP_V0__NNN" 0xB000 0xF000 rfl (by decide) ((wordNNN_mask ..).trans (by decide))
    (by simp [unrecognised_eq, encode]) (by decide)

theorem Laws.RowHit.rnd (x : Ix16) (nn : Byte) : Laws.RowHit.Statement (.rnd x nn) :=
  Laws.RowHit.of_row "RND_Vx__NN" 0xC000 0xF000 rfl (by decide) ((wordXNN_maskOp ..).trans (by decide))
    (by simp [unrecognised_eq, encode]) (by decide)

theorem Laws.RowHit.drw (x y : Ix16) (n : Fin 16) : Laws.RowHit.Statement (.drw x y n) :=
  Laws.RowHit.of_row "DRW_Vx__Vy__N" 0xD000 0xF000 rfl (by decide) ((wordXYN_maskOp ..).trans (by decide))
    (by simp [unrecognised_eq, encode]) (by decide)

theorem Laws.RowHit.skp (x : Ix16) : Laws.RowHit.Statement (.skp x) :=
  Laws.RowHit.of_row "SKP_Vx" 0xE09E 0xF0FF rfl (by decide) ((wordXNN_mask ..).trans (by decide))
    (by simp [unrecognised_eq, encode]) (by decide)

theorem Laws.RowHit.sknp (x : Ix16) : Laws.RowHit.Statement (.sknp x) :=
  Laws.RowHit.of_row "SKNP_Vx" 0xE0A1 0xF0FF rfl (by decide) ((wordXNN_mask ..).trans (by decide))
    (by simp [unrecognised_eq, encode]) (by decide)

theorem Laws.RowHit.ldVxDT (x : Ix16) : Laws.RowHit.Statement (.ldVxDT x) :=
  Laws.RowHit.of_row "LD_Vx__DT" 0xF007 0xF0FF rfl (by decide) ((wordXNN_mask ..).trans (by decide))
    (by simp [unrecognised_eq, encode]) (by decide)

theorem Laws.RowHit.ldVxK (x : Ix16) : Laws.RowHit.Statement (.ldVxK x) :=
  Laws.RowHit.of_row "LD_Vx__K" 0xF00A 0xF0FF rfl (by decide) ((wordXNN_mask ..).trans (by decide))
    (by simp [unrecognised_eq, encode]) (by decide)

theorem Laws.RowHit.ldDT (x : Ix16) : Laws.RowHit.Statement (.ldDT x) :=
  Laws.RowHit.of_row "LD_DT__Vx" 0xF015 0xF0FF rfl (by decide) ((wordXNN_mask ..).trans (by decide))
    (by simp [unrecognised_eq, encode]) (by decide)

theorem Laws.RowHit.ldST (x : Ix16) : Laws.RowHit.Statement (.ldST x) :=
  Laws.RowHit.of_row "LD_ST__Vx" 0xF018 0xF0FF rfl (by decide) ((wordXNN_mask ..).trans (by decide))
    (by simp [unrecognised_eq, encode]) (by decide)

theorem Laws.RowHit.addI (x : Ix16) : Laws.RowHit.Statement (.addI x) :=
  Laws.RowHit.of_row "ADD_I__Vx" 0xF01E 0xF0FF rfl (by decide) ((wordXNN_mask ..).trans (by decide))
    (by simp [unrecognised_eq, encode]) (by decide)

theorem Laws.RowHit.ldF (x : Ix16) : Laws.RowHit.Statement (.ldF x) :=
  Laws.RowHit.of_row "LD_F__Vx" 0xF029 0xF0FF rfl (by decide) ((wordXNN_mask ..).trans (by decide))
    (by simp [unrecognised_eq, encode]) (by decide)

theorem Laws.RowHit.ldB (x : Ix16) : Laws.RowHit.Statement (.ldB x) :=
  Laws.RowHit.of_row "LD_B__Vx" 0xF033 0xF0FF rfl (by decide) ((wordXNN_mask ..).trans (by decide))
    (by simp [unrecognised_eq, encode]) (by decide)

theorem Laws.RowHit.storeRegs (x : Ix16) : Laws.RowHit.Statement (.storeRegs x) :=
  Laws.RowHit.of_row "LD__I___Vx" 0xF055 0xF0FF rfl (by decide) ((wordXNN_mask ..).trans (by decide))
    (by simp [unrecognised_eq, encode]) (by decide)

theorem Laws.RowHit.loadRegs (x : Ix16) : Laws.RowHit.Statement (.loadRegs x) :=
  Laws.RowHit.of_row "LD_Vx___I" 0xF065 0xF0FF rfl (by decide) ((wordXNN_mask ..).trans (by decide))
    (by simp [unrecognised_eq, encode]) (by decide)

theorem Laws.RowHit.nop (w : Word) : Laws.RowHit.Statement (.nop w) := by
  refine fun h => ⟨fun r hr hm => ?_, fun _ => rfl, fun _ => h⟩
  have : ∀ r ∈ opRows, r.mnemonic ≠ "NOP" := by decide
  exact absurd hm (this r hr)

end Sys2Proof
end

