-- ==== Sys2Proof/Laws/Step.lean ====
section
/-! SUPPORT. What a step does in each situation, that no instruction looks at the accumulators, and the
parts of the Reset event. -/

namespace Sys2Proof.Machine

/-! ### The next event -/

/-- With nothing in store a step is a CpuStep. -/
theorem step_of_empty {s : State} (h : s.schedule = []) : step s = cpuStep s := by
  unfold step nextEvent; rw [h]

/-- With an event in store a step performs it. -/
theorem step_of_event {s : State} {e : Event} {rest : List Event} (h : s.schedule = e :: rest) :
    step s = perform e { s with schedule := rest } := by
  unfold step nextEvent; rw [h]

/-- With a CpuStep first in store a step is that CpuStep, and the event leaves the store. -/
theorem step_of_cpuStep {s : State} {rest : List Event} (h : s.schedule = .cpuStep :: rest) :
    step s = cpuStep { s with schedule := rest } := (step_of_event h).trans (if_pos rfl)

/-- With an iteration first in store, of an elapsed time that is not negative, a step is that iteration. -/
theorem step_of_hostIteration {s : State} {dt : Rat} {keys : Word} {rest : List Event}
    (h : s.schedule = .hostIteration dt keys :: rest) (hd : 0 ≤ dt) :
    step s = hostIteration dt keys { s with schedule := rest } :=
  (step_of_event h).trans (if_pos (decide_eq_true hd))

/-- A CpuStep of a faulted CORE does nothing. -/
theorem cpuStep_of_fault {s : State} (h : s.fault ≠ none) : cpuStep s = .next s := if_neg h

/-- A CpuStep with PC above 4094 faults at the fetch. -/
theorem cpuStep_outside {s : State} (hf : s.fault = none) (hp : 4094 < s.pc.toNat) :
    cpuStep s = .next (raise .fetchOutOfBounds s) := by
  rw [cpuStep, if_pos hf, fetch16, if_pos hp]; rfl

/-- A CpuStep with both bytes inside memory runs the instruction at PC, with PC past it. -/
theorem cpuStep_inside {s : State} (hf : s.fault = none) (hp : s.pc.toNat ≤ 4094) :
    cpuStep s = exec (decodeWord (s.mem.word s.pc.toNat)) (s.setPc (s.pc + 2)) := by
  rw [cpuStep, if_pos hf, fetch16, if_neg (by omega)]

/-- A stopped program stays as it is: its next CpuStep changes nothing (70_reset_and_hazards.md R276). -/
theorem cpuStep_of_halted {s : State} (h : s.halted) : cpuStep s = .next s := by
  obtain ⟨hf, hp, nnn, hd, ha⟩ := h
  rw [cpuStep_inside hf hp, show decodeWord (s.mem.word s.pc.toNat) = .jp nnn from hd]
  show Host.Outcome.next (s.setPc (addrWord nnn)) = _
  rw [ha]; rfl

/-- The state withFetchWord makes steps to exec of the word's instruction, from any state. -/
theorem step_withFetchWord (s : State) (nbits w : Nat) :
    ∃ t : State, step (s.withFetchWord nbits w) = exec (decodeWord (tableWord nbits w)) t ∧
      t.fault = none ∧ t.v = s.v ∧ t.i = s.i ∧ t.stack = s.stack ∧ t.sp = s.sp ∧ t.pix = s.pix := by
  have hp : (s.withFetchWord nbits w).pc.toNat ≤ 4094 := by
    show (if s.pc.toNat > 4094 then (0x200 : Word) else s.pc).toNat ≤ 4094
    split
    · decide
    · omega
  have hw : (s.withFetchWord nbits w).mem.word (s.withFetchWord nbits w).pc.toNat =
      tableWord nbits w := by
    unfold State.withFetchWord placeWord Memory.word
    dsimp only
    rw [Memory.read_write_same, Memory.read_write_other _ (Nat.ne_of_lt (Nat.lt_succ_self _)),
      Memory.read_write_same, joinBytes_hi_lo]
  exact ⟨(s.withFetchWord nbits w).setPc ((s.withFetchWord nbits w).pc + 2),
    by rw [step_of_empty rfl, cpuStep_inside rfl hp, hw], rfl, rfl, rfl, rfl, rfl, rfl⟩

/-! ### No instruction looks at CPU_ACC -/

/-- The same flow with another CPU_ACC. -/
def Flow.setCpuAcc (a : Rat) : Flow → Flow
  | .going t => .going { t with cpuAcc := a }
  | .raised t => .raised { t with cpuAcc := a }

theorem memWrite_cpuAcc (a : Rat) (n : Nat) (b : Byte) (s : State) :
    memWrite n b { s with cpuAcc := a } = (memWrite n b s).setCpuAcc a := by
  by_cases h : n ≤ 4095
  · rw [memWrite_inside h, memWrite_inside h]; rfl
  · rw [memWrite_outside (by omega), memWrite_outside (by omega)]; rfl

theorem Flow.setCpuAcc_andThen (a : Rat) (f : Flow) (g : State → Flow)
    (hg : ∀ s, g { s with cpuAcc := a } = (g s).setCpuAcc a) :
    (f.setCpuAcc a).andThen g = (f.andThen g).setCpuAcc a := by
  cases f
  · exact hg _
  · rfl

theorem Flow.setCpuAcc_outcome (a : Rat) {f : Flow} {t : State} (h : f.outcome = .next t) :
    (f.setCpuAcc a).outcome = .next { t with cpuAcc := a } := by
  cases f <;> (cases h; rfl)

theorem blockStore_cpuAcc (a : Rat) (ks : List Ix16) (s : State) :
    blockStore ks { s with cpuAcc := a } = (blockStore ks s).setCpuAcc a := by
  induction ks generalizing s with
  | nil => rfl
  | cons k ks ih =>
    rw [blockStore, blockStore, ← Flow.setCpuAcc_andThen a _ _ fun u => ih (blockStep u),
      ← memWrite_cpuAcc]
    rfl

theorem blockLoad_cpuAcc (a : Rat) (ks : List Ix16) (s : State) :
    blockLoad ks { s with cpuAcc := a } = (blockLoad ks s).setCpuAcc a := by
  induction ks generalizing s with
  | nil => rfl
  | cons k ks ih =>
    rw [blockLoad, blockLoad, show blockAddr k { s with cpuAcc := a } = blockAddr k s from rfl]
    by_cases h : blockAddr k s ≤ 4095
    · rw [memRead_inside h, memRead_inside h]
      exact ih (blockStep (s.setReg k (s.mem.read (blockAddr k s))))
    · rw [memRead_outside (by omega), memRead_outside (by omega)]; rfl

theorem exec_ldB_cpuAcc (a : Rat) (x : Ix16) (s t : State) (h : exec (.ldB x) s = .next t) :
    exec (.ldB x) { s with cpuAcc := a } = .next { t with cpuAcc := a } := by
  have e : exec (.ldB x) { s with cpuAcc := a } =
      ((((memWrite (dataAddr s 0) (hundreds (s.reg x)) s).andThen
        (memWrite (dataAddr s 1) (tens (s.reg x)))).andThen
        (memWrite (dataAddr s 2) (ones (s.reg x)))).setCpuAcc a).outcome := by
    rw [← Flow.setCpuAcc_andThen a _ _ (memWrite_cpuAcc a _ _),
      ← Flow.setCpuAcc_andThen a _ _ (memWrite_cpuAcc a _ _), ← memWrite_cpuAcc]
    rfl
  exact e.trans (Flow.setCpuAcc_outcome a h)

/-- An instruction does the same whatever CPU_ACC holds, and leaves it. -/
theorem exec_cpuAcc (a : Rat) (i : Instr) (s t : State) (h : exec i s = .next t) :
    exec i { s with cpuAcc := a } = .next { t with cpuAcc := a } := by
  cases i
  case storeRegs x =>
    exact (congrArg Flow.outcome (blockStore_cpuAcc a _ s)).trans (Flow.setCpuAcc_outcome a h)
  case loadRegs x =>
    exact (congrArg Flow.outcome (blockLoad_cpuAcc a _ s)).trans (Flow.setCpuAcc_outcome a h)
  case ldB x => exact exec_ldB_cpuAcc a x s t h
  case drw x y n =>
    rcases exec_drw_cases x y n s with ⟨hb, e⟩ | ⟨hb, e⟩ <;>
      rcases exec_drw_cases x y n { s with cpuAcc := a } with ⟨hb', e'⟩ | ⟨hb', e'⟩
    · rw [e] at h; cases h; exact e'
    · exact absurd hb' hb
    · exact absurd hb hb'
    · rw [e] at h; cases h; exact e'
  case call nnn =>
    rcases exec_call_cases nnn s with ⟨hb, e⟩ | ⟨hb, e⟩ <;>
      rcases exec_call_cases nnn { s with cpuAcc := a } with ⟨hb', e'⟩ | ⟨hb', e'⟩
    · rw [e] at h; cases h; exact e'
    · exact absurd (show s.sp.val = 16 from hb') (by omega)
    · exact absurd (show s.sp.val < 16 from hb') (by omega)
    · rw [e] at h; cases h; exact e'
  case ret =>
    by_cases hp : 0 < s.sp.val
    · simp only [exec, execRet] at h ⊢
      rw [pop_going hp] at h
      rw [pop_going (s := { s with cpuAcc := a }) hp]
      cases h; rfl
    · have hp : s.sp.val = 0 := by omega
      simp only [exec, execRet] at h ⊢
      rw [pop_empty hp] at h
      rw [pop_empty (s := { s with cpuAcc := a }) hp]
      cases h; rfl
  case skp x =>
    by_cases hp : (s.reg x).toNat ≤ 15
    · simp only [exec, execSkp] at h ⊢
      rw [withKey_inside hp] at h
      rw [withKey_inside (b := State.reg { s with cpuAcc := a } x) hp]
      cases h; rfl
    · simp only [exec, execSkp] at h ⊢
      rw [withKey_outside (by omega)] at h
      rw [withKey_outside (b := State.reg { s with cpuAcc := a } x) (Nat.lt_of_not_le hp)]
      cases h; rfl
  case sknp x =>
    by_cases hp : (s.reg x).toNat ≤ 15
    · simp only [exec, execSknp] at h ⊢
      rw [withKey_inside hp] at h
      rw [withKey_inside (b := State.reg { s with cpuAcc := a } x) hp]
      cases h; rfl
    · simp only [exec, execSknp] at h ⊢
      rw [withKey_outside (by omega)] at h
      rw [withKey_outside (b := State.reg { s with cpuAcc := a } x) (Nat.lt_of_not_le hp)]
      cases h; rfl
  case ldVxK x =>
    have hr : awaitRelease x { s with cpuAcc := a } = { awaitRelease x s with cpuAcc := a } := by
      by_cases hk : s.keyDown s.wait.key = true
      · rw [awaitRelease, awaitRelease, if_pos hk]; exact if_pos hk
      · rw [awaitRelease, awaitRelease, if_neg hk]; exact if_neg hk
    have hp : awaitPress { s with cpuAcc := a } = { awaitPress s with cpuAcc := a } := by
      unfold awaitPress
      rw [show State.lowestKeyDown { s with cpuAcc := a } = s.lowestKeyDown from rfl]
      cases s.lowestKeyDown <;> rfl
    simp only [exec, execLdVxK, hr, hp] at h ⊢
    by_cases hv : s.wait.valid = true
    · rw [if_pos hv] at h ⊢; cases h; rfl
    · rw [if_neg hv] at h ⊢; cases h; rfl
  all_goals (cases h; rfl)

/-- A CpuStep does the same whatever CPU_ACC holds, and leaves it. -/
theorem cpuStep_cpuAcc (a : Rat) (s t : State) (h : cpuStep s = .next t) :
    cpuStep { s with cpuAcc := a } = .next { t with cpuAcc := a } := by
  by_cases hf : s.fault = none
  · by_cases hp : s.pc.toNat ≤ 4094
    · rw [cpuStep_inside hf hp] at h
      exact (cpuStep_inside (s := { s with cpuAcc := a }) hf hp).trans (exec_cpuAcc a _ _ _ h)
    · rw [cpuStep_outside hf (Nat.lt_of_not_le hp)] at h
      cases h; exact cpuStep_outside (s := { s with cpuAcc := a }) hf (Nat.lt_of_not_le hp)
  · rw [cpuStep_of_fault hf] at h
    cases h; exact cpuStep_of_fault (s := { s with cpuAcc := a }) hf

/-! ### Reset -/

/-- An unlisted address outside the font reads as 0. -/
theorem Memory.unlisted_outside {a : Nat} (h : ¬ (0x50 ≤ a ∧ a < 0xA0)) : Memory.unlisted a = 0 :=
  if_neg h

/-- The block write of a block that fits. -/
theorem Memory.writeBlock_fits {start : Nat} {bytes : List Byte} (h : start + bytes.length ≤ 4096)
    (m : Memory) : m.writeBlock start bytes = some (Memory.writeBytes start bytes m) :=
  if_neg (Nat.not_lt.2 h)

/-- Loading the font never fails. -/
theorem loadFont_eq (font : Vector Byte 80) (s : State) :
    loadFont font s = .going { s with mem := Memory.writeBytes 0x50 font.toList s.mem } := by
  unfold loadFont
  rw [Memory.writeBlock_fits (by rw [Vector.length_toList]; decide)]

/-- A ROM of at most 3584 bytes is loaded at 0x200. -/
theorem loadRom_fits {bytes : List Byte} (h : bytes.length ≤ 3584) (s : State) :
    loadRom (some bytes) s = .going { s with mem := Memory.writeBytes 0x200 bytes s.mem } := by
  simp only [loadRom]
  rw [if_neg (Nat.not_lt.2 h), Memory.writeBlock_fits (by show 0x200 + _ ≤ _; omega)]

/-- A longer ROM is a load failure. -/
theorem loadRom_long {bytes : List Byte} (h : 3584 < bytes.length) (s : State) :
    loadRom (some bytes) s = .raised (raise .loadFailure s) := if_pos h

end Sys2Proof.Machine
end

