-- ==== Sys2Proof/Tests/Slice0.lean ====
section
/-! SUPPORT. The model's own tests. Expected results are those of spec/95_test_vectors.md (the vector's name
stands in each test's comment) or are computed by hand from the rule named. -/

namespace Sys2Proof.Tests

open Sys2Proof.Machine

/-! ### Well-formedness refuses unsuitable NOP terms (30_encoding.md R99) -/

theorem test_wf_refuses_cls_word : (Instr.nop 0x00E0).wf = false := by decide
theorem test_wf_refuses_ret_word : (Instr.nop 0x00EE).wf = false := by decide
theorem test_wf_refuses_jump_word : (Instr.nop 0x1200).wf = false := by decide
theorem test_wf_refuses_skip_word : (Instr.nop 0x5AB0).wf = false := by decide
theorem test_wf_refuses_add_word : (Instr.nop 0x8AB4).wf = false := by decide
theorem test_wf_refuses_sneReg_word : (Instr.nop 0x9AB0).wf = false := by decide
theorem test_wf_refuses_key_words : (Instr.nop 0xE09E).wf = false ∧ (Instr.nop 0xE0A1).wf = false := by
  decide
theorem test_wf_refuses_misc_words :
    [0xFA07#16, 0xFA0A, 0xFA15, 0xFA18, 0xFA1E, 0xFA29, 0xFA33, 0xFA55, 0xFA65].map
      (fun w => (Instr.nop w).wf) = List.replicate 9 false := by decide
theorem test_wf_accepts_unrecognised :
    [0x00E1#16, 0x01EE, 0x0000, 0x0123, 0x5AB1, 0x8AB8, 0x8ABF, 0x9ABF, 0xE09F, 0xF000, 0xFFFF].map
      (fun w => (Instr.nop w).wf) = List.replicate 11 true := by decide

/-! ### Decoding: every constructor from a word written out bit by bit (30_encoding.md R92, R95) -/

theorem test_decode_control :
    decodeWord 0b0000000011100000 = .cls ∧ decodeWord 0b0000000011101110 = .ret ∧
    decodeWord 0b0001101010111100 = .jp 0xABC ∧ decodeWord 0b0010111111111111 = .call 0xFFF ∧
    decodeWord 0b1011000100100011 = .jpV0 0x123 := by decide
theorem test_decode_skips :
    decodeWord 0b0011101000000000 = .seImm 10 0x00 ∧ decodeWord 0b0100111111111111 = .sneImm 15 0xFF ∧
    decodeWord 0b0101101010110000 = .seReg 10 11 ∧ decodeWord 0b1001101010110000 = .sneReg 10 11 := by
  decide
theorem test_decode_immediates :
    decodeWord 0b0110101000000101 = .ldImm 10 0x05 ∧ decodeWord 0b0111000000000001 = .addImm 0 0x01 ∧
    decodeWord 0b1010000100100011 = .ldI 0x123 ∧ decodeWord 0b1100000011111111 = .rnd 0 0xFF := by
  decide
theorem test_decode_logic :
    decodeWord 0b1000101010110000 = .ldReg 10 11 ∧ decodeWord 0b1000000100100001 = .orReg 1 2 ∧
    decodeWord 0b1000000100100010 = .andReg 1 2 ∧ decodeWord 0b1000000100100011 = .xorReg 1 2 := by
  decide
theorem test_decode_arithmetic :
    decodeWord 0b1000000100100100 = .addReg 1 2 ∧ decodeWord 0b1000000100100101 = .subReg 1 2 ∧
    decodeWord 0b1000000100100110 = .shr 1 2 ∧ decodeWord 0b1000101010110111 = .subnReg 10 11 ∧
    decodeWord 0b1000101010111110 = .shl 10 11 := by decide
theorem test_decode_draw_and_keys :
    decodeWord 0b1101000000010101 = .drw 0 1 5 ∧ decodeWord 0b1101000000000000 = .drw 0 0 0 ∧
    decodeWord 0b1110010010011110 = .skp 4 ∧ decodeWord 0b1110010010100001 = .sknp 4 := by decide
theorem test_decode_timers :
    decodeWord 0b1111010100000111 = .ldVxDT 5 ∧ decodeWord 0b1111001100001010 = .ldVxK 3 ∧
    decodeWord 0b1111010100010101 = .ldDT 5 ∧ decodeWord 0b1111010100011000 = .ldST 5 := by decide
theorem test_decode_memory :
    decodeWord 0b1111000100011110 = .addI 1 ∧ decodeWord 0b1111101000101001 = .ldF 10 ∧
    decodeWord 0b1111001100110011 = .ldB 3 ∧ decodeWord 0b1111111101010101 = .storeRegs 15 ∧
    decodeWord 0b1111111101100101 = .loadRegs 15 := by decide
theorem test_decode_nop :
    [0x00E1#16, 0x01EE, 0x0000, 0x0123, 0x5AB1, 0x8AB8, 0x8ABF, 0x9ABF, 0xE09F, 0xE000, 0xF000, 0xF075,
      0xFFFF].all (fun w => decodeWord w == .nop w) = true := by decide
/-- The first byte of memory is the high byte of the word (20_memory.md R64). -/
theorem test_decode_bytes : decode [0x6A, 0x05, 0xFF] = .ok (.ldImm 10 0x05, [0xFF]) := by decide
theorem test_decode_short : decode [0x6A] = .error .truncated := by decide
theorem test_table_word : decodeTableWord 16 0x6A05 = some (.ldImm 10 0x05) := by decide

/-! ### One step on a small state -/

/-- Places a word at PC, steps once and looks at the next state. -/
def look {α : Type} (s : State) (w : Nat) (f : State → α) : Option α :=
  match step (s.withFetchWord 16 w) with
  | .next t => some (f t)
  | .fault _ => none
  | .refused _ => none

/-- The reset state with VF at 0xAA, so that a write of VF shows. -/
def base : State := State.reset.setReg VF 0xAA

/-- `base` with V1 and V2. -/
def two (a b : Byte) : State := (base.setReg 1 a).setReg 2 b

/-- `base` with I and one memory byte at 0x300. -/
def atI (i : Word) (b : Byte) : State := { base with i := i, mem := Memory.write [] 0x300 b }

/-- `base` with a quirk configuration. -/
def withQuirks (q : Quirks) (s : State) : State := { s with quirks := q }

/-- The keys whose bits are set in a mask. -/
def keysDown (mask : Word) : Vector Bool 16 := Vector.ofFn fun k => mask.getLsbD k.val

-- CF1
theorem test_nop : look base 0x8AB9 (fun t => (t.pc, t.v == base.v, t.fault)) = some (0x202, true, none) := by
  decide
-- RD4
theorem test_cls : look { base with pix := Display.clear.setPixel 31 63 true } 0x00E0
    (fun t => (t.pix.pixel 31 63, t.reg VF)) = some (false, 0xAA) := by decide
-- CF6
theorem test_ret_sixteenth : look { base with sp := 16, stack := base.stack.set 15 0x0ABC } 0x00EE
    (fun t => (t.pc, t.sp)) = some (0x0ABC, 15) := by decide
-- S5c
theorem test_ret_empty : look base 0x00EE (fun t => (t.pc, t.fault, t.faultPc)) =
    some (0x202, some .stackUnderflow, 0x202) := by decide
-- CF10
theorem test_jp_odd : look base 0x1FFF (fun t => t.pc) = some 0xFFF := by decide
-- S5a
theorem test_call_sixteenth : look { base with sp := 15 } 0x2300
    (fun t => (t.pc, t.sp, t.stack[15])) = some (0x300, 16, 0x202) := by decide
-- S5b
theorem test_call_full : look { base with sp := 16 } 0x2300 (fun t => (t.pc, t.fault, t.faultPc)) =
    some (0x202, some .stackOverflow, 0x202) := by decide
-- CF15, CF16
theorem test_seImm : look (base.setReg 3 0x7B) 0x337B (fun t => t.pc) = some 0x204 ∧
    look (base.setReg 3 0x7B) 0x337C (fun t => t.pc) = some 0x202 := by decide
-- CF18, CF19
theorem test_sneImm : look (base.setReg 3 0x7B) 0x437B (fun t => t.pc) = some 0x202 ∧
    look (base.setReg 3 0x7B) 0x4300 (fun t => t.pc) = some 0x204 := by decide
-- CF20, CF21
theorem test_seReg : look (two 7 7) 0x5120 (fun t => t.pc) = some 0x204 ∧
    look (two 7 8) 0x5120 (fun t => t.pc) = some 0x202 := by decide
-- CF23, CF24
theorem test_sneReg : look (two 7 8) 0x9120 (fun t => t.pc) = some 0x204 ∧
    look (two 7 7) 0x9120 (fun t => t.pc) = some 0x202 := by decide
-- CF30
theorem test_skip_past_end : look { base with pc := 0xFFE } 0x3000 (fun t => t.pc) = some 0x1002 := by
  decide
-- CF28
theorem test_jpV0_largest : look (base.setReg 0 0xFF) 0xBFFF (fun t => t.pc) = some 0x10FE := by
  decide
-- CF27
theorem test_jpV0_quirk : look (withQuirks ⟨false, true, false⟩ ((base.setReg 0 0x04).setReg 2 0x10))
    0xB210 (fun t => t.pc) = some 0x220 := by decide

-- AL1
theorem test_ldImm : look base 0x6A05 (fun t => (t.pc, t.reg 10)) = some (0x202, 5) := by decide
-- AL3
theorem test_addImm_wraps : look (base.setReg 0 0xFE) 0x7003 (fun t => (t.reg 0, t.reg VF)) =
    some (1, 0xAA) := by decide
-- AL6
theorem test_ldReg : look (two 0 0x33) 0x8120 (fun t => (t.reg 1, t.reg 2)) = some (0x33, 0x33) := by
  decide
-- AL7
theorem test_or : look (two 0xF0 0x0F) 0x8121 (fun t => (t.reg 1, t.reg VF)) = some (0xFF, 0xAA) := by decide
-- AL8
theorem test_and : look (two 0xF3 0x3F) 0x8122 (fun t => (t.reg 1, t.reg VF)) = some (0x33, 0xAA) := by decide
-- AL9
theorem test_xor : look (two 0xFF 0x0F) 0x8123 (fun t => (t.reg 1, t.reg VF)) = some (0xF0, 0xAA) := by decide
-- S1a, S1b
theorem test_addReg : look (two 0xC8 0x64) 0x8124 (fun t => (t.reg 1, t.reg VF)) = some (0x2C, 1) ∧
    look (two 0xFF 0x00) 0x8124 (fun t => (t.reg 1, t.reg VF)) = some (0xFF, 0) := by decide
-- AL12, AL13: with X = 15 the flag stays
theorem test_addReg_VF : look ((base.setReg 15 0xF0).setReg 1 0x20) 0x8F14 (fun t => t.reg VF) = some 1 ∧
    look ((base.setReg 15 0x10).setReg 1 0x20) 0x8F14 (fun t => t.reg VF) = some 0 := by decide
-- S2a, S2c
theorem test_sub : look (two 5 7) 0x8125 (fun t => (t.reg 1, t.reg VF)) = some (0xFE, 0) ∧
    look (two 7 7) 0x8125 (fun t => (t.reg 1, t.reg VF)) = some (0, 1) := by decide
-- AL17, AL18
theorem test_shr : look (withQuirks ⟨true, false, false⟩ (two 5 6)) 0x8126
      (fun t => (t.reg 1, t.reg 2, t.reg VF)) = some (3, 6, 0) ∧
    look (two 5 6) 0x8126 (fun t => (t.reg 1, t.reg VF)) = some (2, 1) := by decide
-- AL22, AL23
theorem test_subn : look (two 5 7) 0x8127 (fun t => (t.reg 1, t.reg VF)) = some (2, 1) ∧
    look (two 7 5) 0x8127 (fun t => (t.reg 1, t.reg VF)) = some (0xFE, 0) := by decide
-- AL25, AL26
theorem test_shl : look (two 0x81 0x40) 0x812E (fun t => (t.reg 1, t.reg VF)) = some (2, 1) ∧
    look (withQuirks ⟨true, false, false⟩ (two 0x81 0x40)) 0x812E (fun t => (t.reg 1, t.reg VF)) =
      some (0x80, 0) := by decide

-- IM2
theorem test_ldI : look { base with i := 0x1234 } 0xAFFF (fun t => t.i) = some 0xFFF := by decide
-- IM4, IM6
theorem test_addI : look { base.setReg 1 0x0F with i := 0x0FF0 } 0xF11E (fun t => (t.i, t.reg VF)) =
      some (0xFFF, 0) ∧
    look { base.setReg 1 1 with i := 0xFFFF } 0xF11E (fun t => (t.i, t.reg VF)) = some (0, 1) := by
  decide
-- IM10
theorem test_ldF : look (base.setReg 0 0x1F) 0xF029 (fun t => t.i) = some 0x9B := by decide
-- IM11
theorem test_ldB : look { base.setReg 3 0x7B with i := 0x300 } 0xF333
    (fun t => (t.mem.read 0x300, t.mem.read 0x301, t.mem.read 0x302, t.i)) = some (1, 2, 3, 0x300) := by
  decide
-- IM15
theorem test_ldB_partial : look { base.setReg 3 0x7B with i := 0xFFE } 0xF333
    (fun t => (t.mem.read 0xFFE, t.mem.read 0xFFF, t.fault, t.faultPc)) =
    some (1, 2, some .memWriteOutOfBounds, 0x202) := by decide
-- IM18
theorem test_storeRegs_quirk : look (withQuirks ⟨false, false, true⟩
      { (two 0xBB 0xCC).setReg 0 0xAA with i := 0x300 }) 0xF155
    (fun t => (t.mem.read 0x300, t.mem.read 0x301, t.mem.read 0x302, t.i)) =
    some (0xAA, 0xBB, 0, 0x302) := by decide
-- IM22
theorem test_storeRegs_partial : look (withQuirks ⟨false, false, true⟩
      { (two 2 3).setReg 0 1 with i := 0xFFE }) 0xF255
    (fun t => (t.mem.read 0xFFE, t.mem.read 0xFFF, t.i, t.fault)) =
    some (1, 2, 0x1000, some .memWriteOutOfBounds) := by decide
-- IM27
theorem test_loadRegs : look { base with i := 0x200 } 0xF165 (fun t => (t.reg 0, t.reg 1, t.i)) =
    some (0xF1, 0x65, 0x200) := by decide
-- IM26
theorem test_loadRegs_partial : look { base.setReg 1 0x55 with i := 0xFFF, mem := [(0xFFF, 0x9C)] } 0xF165
    (fun t => (t.reg 0, t.reg 1, t.fault)) = some (0x9C, 0x55, some .memReadOutOfBounds) := by decide

-- RD1, with the byte on the port listed
theorem test_rnd : look { base with rndIn := [0xB7, 0x01] } 0xC10F
    (fun t => (t.reg 1, t.rndIn, t.rndCount)) = some (7, [0x01], 1) := by decide
-- RD5
theorem test_drw_edge : look (((atI 0x300 0xC0).setReg 0 0x3E).setReg 1 5) 0xD011
    (fun t => (t.pix.pixel 5 62, t.pix.pixel 5 63, t.pix.pixel 5 0, t.reg VF)) =
    some (true, true, false, 0) := by decide
-- RD8
theorem test_drw_collision :
    look { ((atI 0x300 0xF0).setReg 0 8).setReg 1 1 with pix := Display.clear.setPixel 1 8 true } 0xD011
      (fun t => (t.pix.pixel 1 8, t.pix.pixel 1 9, t.pix.pixel 1 12, t.reg VF)) =
    some (false, true, false, 1) := by decide

-- KT5, KT6
theorem test_skp : look { base.setReg 4 0x0F with key := keysDown 0x8000 } 0xE49E (fun t => t.pc) =
      some 0x204 ∧
    look { base.setReg 4 0x10 with key := keysDown 0xFFFF } 0xE49E (fun t => (t.pc, t.fault)) =
      some (0x202, some .keyIndexOutOfRange) := by decide
-- KT3, KT4
theorem test_sknp : look { base.setReg 4 0x0A with key := keysDown 0x0400 } 0xE4A1 (fun t => t.pc) =
      some 0x202 ∧
    look (base.setReg 4 0x0A) 0xE4A1 (fun t => t.pc) = some 0x204 := by decide
-- KT8
theorem test_ldVxDT : look { base with dt := 60 } 0xF507 (fun t => (t.reg 5, t.dt)) = some (60, 60) := by
  decide
-- KT9
theorem test_ldDT : look (base.setReg 5 60) 0xF515 (fun t => (t.dt, t.st)) = some (60, 0) := by decide
-- KT10
theorem test_ldST : look (base.setReg 5 2) 0xF518 (fun t => (t.dt, t.st)) = some (0, 2) := by decide
-- KT14
theorem test_wait_latches_lowest : look { base with key := keysDown 0x0084 } 0xF30A
    (fun t => (t.pc, t.wait)) = some (0x200, ⟨true, 2⟩) := by decide
-- KT17
theorem test_wait_completes : look { base with key := keysDown 0x0004, wait := ⟨true, 7⟩ } 0xF30A
    (fun t => (t.pc, t.reg 3, t.wait)) = some (0x202, 7, ⟨false, 7⟩) := by decide

/-! ### Fetch, faults and the host's events -/

/-- One step of a state with an event in store. -/
def event {α : Type} (e : Event) (s : State) (f : State → α) : Option α :=
  match step { s with schedule := [e] } with
  | .next t => some (f t)
  | .fault _ => none
  | .refused _ => none

-- F1
theorem test_fetch_last : look { base with pc := 0xFFE } 0x6011 (fun t => (t.pc, t.reg 0)) =
    some (0x1000, 0x11) := by decide
-- F2
theorem test_fetch_outside : event .cpuStep { base with pc := 0xFFF }
    (fun t => (t.pc, t.fault, t.faultPc)) = some (0xFFF, some .fetchOutOfBounds, 0xFFF) := by decide
-- R9, R232: a CpuStep event executes the instruction at PC and leaves the events after it
theorem test_cpuStep_event : event .cpuStep { base with mem := [(0x200, 0x6A), (0x201, 0x05)] }
    (fun t => (t.pc, t.reg 10, t.schedule)) = some (0x202, 5, []) := by decide
-- F5
theorem test_fetch_odd : look { base with pc := 0x201 } 0x6011 (fun t => (t.pc, t.reg 0)) =
    some (0x203, 0x11) := by decide
-- R276, R223: 0x1200 at 0x200 is a stopped program while no fault is recorded, and not after a fault
theorem test_halted : State.halted { base with mem := [(0x200, 0x12)] } ∧
    ¬ State.halted { base with mem := [(0x200, 0x12)], fault := some .stackUnderflow, faultPc := 0x200 } :=
  ⟨⟨rfl, by decide, 0x200, by decide, by decide⟩, fun h => by cases h.1⟩
-- TT1, TT3
theorem test_timerTick : event .timerTick { base with dt := 5, st := 3 } (fun t => (t.dt, t.st)) =
      some (4, 2) ∧
    event .timerTick base (fun t => (t.dt, t.st)) = some (0, 0) := by decide
-- R244
theorem test_keySample : event (.keySample 0x0081) base (fun t => (t.keyDown 0, t.keyDown 1, t.keyDown 7)) =
    some (true, false, true) := by decide
-- R223
theorem test_faulted_ignores : event (.keySample 0x0081) { base with fault := some .stackOverflow }
    (fun t => (t.keyDown 0, t.fault)) = some (false, some .stackOverflow) := by decide
-- SC6: half a CPU period gives no step, the second half gives one
theorem test_iteration_half : event (.hostIteration (1 / 1000) 0) base
    (fun t => (t.pc, t.cpuAcc, t.timerAcc)) = some (0x200, 1 / 1000, 1 / 1000) := by decide +kernel
theorem test_iteration_second_half : event (.hostIteration (1 / 1000) 0)
    { base with cpuAcc := 1 / 1000, timerAcc := 1 / 1000 } (fun t => (t.pc, t.cpuAcc, t.timerAcc)) =
    some (0x202, 0, 1 / 500) := by decide +kernel
-- S6c
theorem test_iteration_slow_cpu : event (.hostIteration (1 / 60) 0)
    { base with rates := ⟨30, 60⟩, dt := 1, st := 1 } (fun t => (t.pc, t.dt, t.st, t.cpuAcc, t.timerAcc)) =
    some (0x200, 0, 0, 1 / 60, 0) := by decide +kernel
-- R240, R223: of ten due steps the first moves PC past the last word and the second one's fetch faults
theorem test_iteration_faults : event (.hostIteration (1 / 50) 0) { base with pc := 0xFFE, dt := 5 }
    (fun t => (t.pc, t.fault, t.dt, t.cpuAcc, t.timerAcc)) =
    some (0x1000, some .fetchOutOfBounds, 5, 8 / 500, 0) := by decide +kernel
-- R245: a negative elapsed time is no move of the host
theorem test_negative_time :
    (match step { base with schedule := [.hostIteration (-1) 0] } with
      | .next _ => none
      | .fault _ => none
      | .refused r => some r) = some .outsideHostContract := by decide +kernel

/-- A session with a ROM, the default font and quirks, the reference rates. -/
def session (rom : Option (List Byte)) : Session := ⟨rom, Config.defaultFont, ⟨true, false, true⟩, ⟨500, 60⟩⟩

-- R260, R264, R266
theorem test_reset_event : event (.reset (session (some [0x12, 0x00])))
    { base with fault := some .stackOverflow, pc := 0xFFF }
    (fun t => (t.pc, t.fault, t.reg VF, t.quirks, t.mem.read 0x200, t.mem.read 0x201)) =
    some (0x200, none, 0, ⟨true, false, true⟩, 0x12, 0x00) := by decide +kernel
-- R265
theorem test_reset_unreadable : event (.reset (session none)) base
    (fun t => (t.fault, t.faultPc, t.mem.read 0x55)) = some (some .loadFailure, 0x200, 0x20) := by
  decide +kernel

/-! ### Witnesses: a state and operands that meet the hypotheses of each statement, clause by clause -/

/-- A faulted state. -/
def faulted : State := { base with fault := some .stackOverflow, faultPc := 0x202 }

theorem witness_FieldsOfAWord : (0xD015#16 : Word) = (0xD#4 ++ 0x0#4 ++ 0x1#4 ++ 0x5#4 : BitVec 16) := by
  decide
theorem witness_DecodeOfEncode : (Instr.nop 0x0123).wf = true ∧ (Instr.drw 15 15 15).wf = true := by decide
theorem witness_StepRunsDecodedInstruction_empty : ∃ (s : State) (i : Instr), s.running ∧
    s.pc.toNat = 4094 ∧ decode [s.mem.read s.pc.toNat, s.mem.read (s.pc.toNat + 1)] = .ok (i, []) ∧
    s.schedule = [] :=
  ⟨{ base with pc := 0xFFE }, _, rfl, by decide, rfl, rfl⟩
theorem witness_StepRunsDecodedInstruction_cpuStep : ∃ (s : State) (i : Instr) (rest : List Event),
    s.running ∧ s.pc.toNat ≤ 4094 ∧
    decode [s.mem.read s.pc.toNat, s.mem.read (s.pc.toNat + 1)] = .ok (i, []) ∧
    s.schedule = .cpuStep :: rest :=
  ⟨{ base with schedule := [.cpuStep, .timerTick] }, _, _, rfl, by decide, rfl, rfl⟩
theorem witness_FetchBeyondMemoryFaults_empty :
    ∃ s : State, s.running ∧ 4094 < s.pc.toNat ∧ s.schedule = [] :=
  ⟨{ base with pc := 0xFFF }, rfl, by decide, rfl⟩
theorem witness_FetchBeyondMemoryFaults_cpuStep : ∃ (s : State) (rest : List Event), s.running ∧
    4094 < s.pc.toNat ∧ s.schedule = .cpuStep :: rest :=
  ⟨{ base with pc := 0xFFF, schedule := [.cpuStep, .timerTick] }, _, rfl, by decide, rfl⟩
theorem witness_FaultedCoreIgnoresEvents_step : ∃ s : State, s.fault ≠ none ∧ s.schedule = [] :=
  ⟨faulted, by decide, rfl⟩
theorem witness_FaultedCoreIgnoresEvents_event : ∃ (s : State) (e : Event) (rest : List Event),
    s.fault ≠ none ∧ s.schedule = e :: rest ∧ e.legal = true ∧ ∀ p, e ≠ .reset p :=
  ⟨{ faulted with schedule := [.hostIteration 0 0xFFFF] }, _, _, by decide, rfl, by decide,
    fun _ h => by cases h⟩
theorem witness_StepKeepsInvariant : ∃ s t : State, s.Inv ∧ step s = .next t := by
  refine ⟨{ faulted with pc := 0x10FE, mem := [(0x200, 0x12)] }, _, ?_, rfl⟩
  constructor <;> simp [faulted, base, State.reset, State.setReg, Config.referenceRates]
  decide
theorem witness_ResetEventLoadsSession_longest :
    ∃ (s : State) (p : Session) (rest : List Event) (rom : List Byte), s.schedule = .reset p :: rest ∧
      0 < p.rates.cpuHz ∧ 0 < p.rates.timerHz ∧ p.rom = some rom ∧ rom.length ≤ 3584 :=
  ⟨{ faulted with schedule := [.reset (session (some (List.replicate 3584 0x12)))] }, _, _, _, rfl,
    by decide, by decide, rfl, by rw [List.length_replicate]⟩
theorem witness_ResetEventLoadFailure_unreadable :
    ∃ (s : State) (p : Session) (rest : List Event), s.schedule = .reset p :: rest ∧
      0 < p.rates.cpuHz ∧ 0 < p.rates.timerHz ∧ p.rom = none :=
  ⟨{ base with schedule := [.reset (session none)] }, _, _, rfl, by decide, by decide, rfl⟩
theorem witness_ResetEventLoadFailure_oversized :
    ∃ (s : State) (p : Session) (rest : List Event) (rom : List Byte), s.schedule = .reset p :: rest ∧
      0 < p.rates.cpuHz ∧ 0 < p.rates.timerHz ∧ p.rom = some rom ∧ 3584 < rom.length :=
  ⟨{ base with schedule := [.reset (session (some (List.replicate 3585 0x12)))] }, _, _, _, rfl,
    by decide, by decide, rfl, by rw [List.length_replicate]; decide⟩
theorem witness_WriteBlockAllOrNothing :
    (4096 < 4095 + ([1, 2] : List Byte).length) ∧ 4095 + ([1] : List Byte).length ≤ 4096 := by decide
theorem witness_CanonicalMemoryIsUnique :
    ∃ m m' : Memory, m.wf ∧ m'.wf ∧ ∀ a, m.read a = m'.read a :=
  ⟨[(0x200, 1), (4095, 2)], [(0x200, 1), (4095, 2)], by decide, by decide, fun _ => rfl⟩
theorem witness_StoreSeenByNextFetch_first : ∃ s t u : State, s.i.toNat ≤ 4095 ∧
    exec (.storeRegs 0) s = .next t ∧ u.mem = t.mem ∧ u.canFetch ∧ u.pc.toNat = s.i.toNat ∧
    s.i.toNat = 4094 :=
  ⟨{ base with i := 4094, pc := 4094 }, _, _, by decide, rfl, rfl, ⟨rfl, rfl, by decide⟩, rfl, by decide⟩
theorem witness_StoreSeenByNextFetch_second : ∃ s t u : State, s.i.toNat ≤ 4095 ∧
    exec (.storeRegs 0) s = .next t ∧ u.mem = t.mem ∧ u.canFetch ∧ u.pc.toNat + 1 = s.i.toNat ∧
    s.i.toNat = 4095 :=
  ⟨{ base with i := 4095, pc := 4094 }, _, _, by decide, rfl, rfl, ⟨rfl, rfl, by decide⟩, by decide,
    by decide⟩
theorem witness_PushAddsTop : ∃ s t : State, s.sp.val < 16 ∧ t.sp.val = 16 :=
  ⟨{ base with sp := 15 }, { base with sp := 16 }, by decide, by decide⟩
theorem witness_PopTakesTop : ∃ (s u t : State) (j k : Fin 16), s.sp.val = k.val + 1 ∧
    u.sp.val = j.val + 1 ∧ t.sp.val = 0 :=
  ⟨{ base with sp := 16 }, { base with sp := 1 }, base, 0, 15, by decide, by decide, by decide⟩
theorem witness_PcAfterSkipsAndPlainInstructions_skip : ∃ (i : Instr) (s t : State), setsPc i = false ∧
    exec i s = .next t ∧ skipHolds s i :=
  ⟨.sknp 0, base, _, rfl, rfl, 0, by decide, by decide⟩
theorem witness_PcAfterSkipsAndPlainInstructions_plain : ∃ (i : Instr) (s t : State), setsPc i = false ∧
    exec i s = .next t ∧ ¬ skipHolds s i :=
  ⟨.seImm 15 0, base, _, rfl, rfl, by unfold skipHolds; decide⟩
theorem witness_RegistersChangedOnlyIfNamed : ∃ (i : Instr) (s t : State) (k : Ix16),
    exec i s = .next t ∧ k ∉ writtenRegs i :=
  ⟨.loadRegs 14, base, _, 15, rfl, by decide⟩
theorem witness_StateChangedOnlyByItsWriters : ∃ (i : Instr) (s t : State), exec i s = .next t ∧
    t.i ≠ s.i ∧ (∃ (j : Instr) (u : State), exec j s = .next u ∧ u.stack ≠ s.stack ∧ u.sp ≠ s.sp) :=
  ⟨.ldF 0, base, _, rfl, by decide, .call 0x300, _, rfl, by decide, by decide⟩
theorem witness_StateChangedOnlyByItsWriters_rest :
    (∃ t : State, exec .cls { base with pix := Display.clear.setPixel 0 0 true } = .next t ∧
      t.pix.pixel 0 0 ≠ true) ∧
    (∃ t : State, exec (.ldDT 15) base = .next t ∧ t.dt ≠ base.dt) ∧
    (∃ t : State, exec (.ldST 15) base = .next t ∧ t.st ≠ base.st) ∧
    (∃ t : State, exec (.ldVxK 0) { base with key := keysDown 1 } = .next t ∧ t.wait ≠ base.wait) ∧
    ∃ t : State, exec (.rnd 0 0) base = .next t ∧ t.rndCount ≠ base.rndCount :=
  ⟨⟨_, rfl, by decide⟩, ⟨_, rfl, by decide⟩, ⟨_, rfl, by decide⟩, ⟨_, rfl, by decide⟩,
    ⟨_, rfl, by decide⟩⟩
theorem witness_MemoryChangesOnlyAtStoreAddresses : ∃ (i : Instr) (s t : State) (a : Nat),
    exec i s = .next t ∧ a ∉ storeAddrs s i ∧ 4095 ∈ storeAddrs s i :=
  ⟨.ldB 15, { base with i := 4095 }, _, 4096, rfl, by decide, by decide⟩
theorem witness_FaultsByInstruction : ∃ (i : Instr) (s t : State), exec i s = .next t ∧
    t.fault ≠ s.fault :=
  ⟨.ret, base, _, rfl, by decide⟩
theorem witness_ExecuteFaultIsPrecise : ∃ (i : Instr) (s t : State) (f : Fault), s.fault = none ∧
    exec i s = .next t ∧ t.fault = some f :=
  ⟨.storeRegs 1, { base with i := 4095 }, _, _, rfl, rfl, rfl⟩
theorem witness_StepAnswersNextOrContractRefusal : ∃ (s : State) (e : Event) (rest : List Event),
    s.schedule = e :: rest ∧ e.legal = false :=
  ⟨{ base with schedule := [.hostIteration (-1) 0] }, _, _, rfl, by decide⟩
theorem witness_NopOnlyAdvances : unrecognised 0x0000 = true ∧ unrecognised 0xFFFF = true := by decide
theorem witness_RetReturnsToTop : ∃ (s : State) (k : Fin 16), s.sp.val = k.val + 1 :=
  ⟨{ base with sp := 16 }, 15, by decide⟩
theorem witness_CallPushesReturnAddress : ∃ (s : State) (k : Fin 16), s.sp.val = k.val ∧ k = 15 :=
  ⟨{ base with sp := 15 }, 15, by decide, rfl⟩
theorem witness_StackFaultsStop : ∃ s t : State, s.sp.val = 16 ∧ t.sp.val = 0 :=
  ⟨{ base with sp := 16 }, base, by decide, by decide⟩
theorem witness_ShiftsSetShiftedOutBit : ∃ (y : Ix16) (s : State) (b : Byte),
    b = (if s.quirks.shiftVy = true then s.reg y else s.reg 0) ∧ b = 0xAA :=
  ⟨15, withQuirks ⟨true, false, false⟩ base, 0xAA, by decide, rfl⟩
theorem witness_BcdStoresDigits : ∃ s : State, s.i.toNat + 2 ≤ 4095 ∧ 4095 < s.i.toNat + 3 :=
  ⟨{ base with i := 4093 }, by decide, by decide⟩
theorem witness_BlockStoreWritesRegisters : ∃ (x : Ix16) (s : State), s.i.toNat + x.val ≤ 4095 ∧ x = 15 :=
  ⟨15, { base with i := 4080 }, by decide, rfl⟩
theorem witness_BlockLoadReadsRegisters : ∃ (x : Ix16) (s : State), s.i.toNat + x.val ≤ 4095 ∧ x = 0 :=
  ⟨0, { base with i := 4095 }, by decide, rfl⟩
theorem witness_StoresBeyondMemoryFault_ldB : ∃ s : State, 4095 < s.i.toNat + 2 ∧
    dataAddr s 0 ≤ 4095 ∧ dataAddr s 1 ≤ 4095 :=
  ⟨{ base with i := 4094 }, by decide, by decide, by decide⟩
theorem witness_StoresBeyondMemoryFault_storeRegs : ∃ (x : Ix16) (s : State), 4095 < s.i.toNat + x.val ∧
    dataAddr s 0 ≤ 4095 :=
  ⟨1, { base with i := 4095 }, by decide, by decide⟩
theorem witness_LoadsBeyondMemoryFault_loadRegs : ∃ (x : Ix16) (s : State), 4095 < s.i.toNat + x.val ∧
    dataAddr s 0 ≤ 4095 :=
  ⟨1, { base with i := 4095 }, by decide, by decide⟩
theorem witness_LoadsBeyondMemoryFault_drw : ∃ (n : Fin 16) (s : State), 1 ≤ n.val ∧
    4096 < s.i.toNat + n.val :=
  ⟨1, { base with i := 4096 }, by decide, by decide⟩
theorem witness_RandomByteIsMasked_listed : ∃ (s : State) (b : Byte) (rest : List Byte),
    s.rndIn = b :: rest := ⟨{ base with rndIn := [0xB7] }, _, _, rfl⟩
theorem witness_RandomByteIsMasked_free : ∃ s : State, s.rndIn = [] := ⟨base, rfl⟩
theorem witness_DrawXorsSprite_none : ∃ (n : Fin 16) (s : State), n.val = 0 ∧ 4096 < s.i.toNat :=
  ⟨0, { base with i := 0x2000 }, by decide, by decide⟩
theorem witness_DrawXorsSprite_collision : ∃ (x y : Ix16) (n : Fin 16) (s : State),
    s.i.toNat + n.val ≤ 4096 ∧ ∃ y' x', spriteBit s x y n y' x' ∧ s.pix.pixel y' x' = true :=
  ⟨0, 0, 1, { base with i := 4095, mem := [(4095, 0x80)], pix := Display.clear.setPixel 0 0 true },
    by decide, 0, 0, ⟨0, 0, by decide, by decide, by decide, by decide, by decide⟩, by decide⟩
theorem witness_DrawXorsSprite_no_collision : ∃ (x y : Ix16) (n : Fin 16) (s : State),
    s.i.toNat + n.val ≤ 4096 ∧ ¬ ∃ y' x', spriteBit s x y n y' x' ∧ s.pix.pixel y' x' = true := by
  refine ⟨0, 0, 1, { base with i := 4095 }, by decide, ?_⟩
  rintro ⟨y', x', -, h⟩
  have : Display.pixel (Vector.replicate 32 (Vector.replicate 64 false)) y' x' = true := h
  simp [Display.pixel] at this
theorem witness_DrawTwiceRestores : ∃ (x y : Ix16) (n : Fin 16) (s t u : State), x ≠ VF ∧ y ≠ VF ∧
    s.i.toNat + n.val ≤ 4096 ∧ exec (.drw x y n) s = .next t ∧ exec (.drw x y n) t = .next u :=
  ⟨0, 1, 1, atI 0x300 0x80, _, _, by decide, by decide, by decide, rfl, rfl⟩
theorem witness_KeySkipsReadKeyVector : ∃ (x : Ix16) (s : State) (k : Ix16), (s.reg x).toNat = k.val ∧
    k = 15 := ⟨0, base.setReg 0 15, 15, by decide, rfl⟩
theorem witness_KeyIndexAboveFifteenFaults : ∃ (x : Ix16) (s : State), 15 < (s.reg x).toNat :=
  ⟨0, base.setReg 0 16, by decide⟩
theorem witness_KeyWaitPressThenRelease_none : ∃ s : State, s.wait.valid = false ∧
    ∀ k : Ix16, s.key[k.val] = false := ⟨base, rfl, by decide⟩
theorem witness_KeyWaitPressThenRelease_press : ∃ (s : State) (k : Ix16), s.wait.valid = false ∧
    s.key[k.val] = true ∧ ∀ j : Ix16, j < k → s.key[j.val] = false :=
  ⟨{ base with key := keysDown 0x8000 }, 15, rfl, by decide, by decide⟩
theorem witness_KeyWaitPressThenRelease_held : ∃ s : State, s.wait.valid = true ∧
    s.key[s.wait.key.val] = true :=
  ⟨{ base with key := keysDown 0x0084, wait := ⟨true, 7⟩ }, rfl, by decide⟩
theorem witness_KeyWaitPressThenRelease_release : ∃ s : State, s.wait.valid = true ∧
    s.key[s.wait.key.val] = false :=
  ⟨{ base with key := keysDown 0x0004, wait := ⟨true, 7⟩ }, rfl, by decide⟩
theorem witness_TimerTickSaturates : ∃ (s u : State) (rest : List Event),
    s.schedule = .timerTick :: rest ∧ s.fault = none ∧ u.schedule = .timerTick :: rest ∧ u.fault ≠ none :=
  ⟨{ base with schedule := [.timerTick] }, { faulted with schedule := [.timerTick] }, [], rfl, rfl, rfl,
    by decide⟩
theorem witness_KeySampleReplacesKeys : ∃ (s u : State) (keys : Word) (rest : List Event),
    s.schedule = .keySample keys :: rest ∧ s.fault = none ∧ u.schedule = .keySample keys :: rest ∧
      u.fault ≠ none :=
  ⟨{ base with schedule := [.keySample 0xFFFF] }, { faulted with schedule := [.keySample 0xFFFF] }, _, [],
    rfl, rfl, rfl, by decide⟩
theorem witness_IterationRunsDueStepsAndTicks : ∃ (s u : State) (rest : List Event) (dt : Rat)
    (keys : Word) (n m : Nat),
    s.schedule = .hostIteration dt keys :: rest ∧ s.fault = none ∧ 0 ≤ dt ∧ 0 ≤ s.cpuAcc ∧
    0 ≤ s.timerAcc ∧ 0 < s.rates.cpuHz ∧ 0 < s.rates.timerHz ∧
    (n : Int) = ((s.cpuAcc + dt) * s.rates.cpuHz).floor ∧
    (m : Int) = ((s.timerAcc + dt) * s.rates.timerHz).floor ∧
    cpuSteps n (keySample keys { s with schedule := rest }) = .next u ∧ u.fault = none :=
  ⟨{ base with rates := ⟨120, 60⟩, schedule := [.hostIteration (1 / 60) 0x0081] }, _, _, _, _, 2, 1,
    rfl, rfl, by decide +kernel, by decide, by decide, by decide, by decide, by decide +kernel,
    by decide +kernel, rfl, rfl⟩
/-- A running state whose fetch faults, with an iteration of one CPU period in store. -/
def iterationAtEnd : State := { base with pc := 0xFFF, schedule := [.hostIteration (1 / 500) 0x0081] }

theorem witness_FaultingIterationSkipsTimers_due : ∃ (s u : State) (rest : List Event) (dt : Rat)
    (keys : Word) (k : Nat), s.schedule = .hostIteration dt keys :: rest ∧ s.running ∧ 0 ≤ dt ∧
    0 < s.rates.cpuHz ∧ (k : Int) ≤ ((s.cpuAcc + dt) * s.rates.cpuHz).floor ∧
    FaultsAt k (keySample keys { s with schedule := rest }) u :=
  ⟨iterationAtEnd, _, _, _, _, 1, rfl, rfl, by decide +kernel, by decide, by decide +kernel,
    0, _, rfl, rfl, rfl, rfl, by decide⟩
theorem witness_FaultingIterationSkipsTimers_end : ∃ (s t : State) (rest : List Event) (dt : Rat)
    (keys : Word), s.schedule = .hostIteration dt keys :: rest ∧ s.running ∧ 0 ≤ dt ∧
    0 < s.rates.cpuHz ∧ step s = .next t ∧ t.fault ≠ none := by
  have h : (match step iterationAtEnd with
      | .next t => t.fault
      | .fault _ => none
      | .refused _ => none) = some .fetchOutOfBounds := by decide +kernel
  cases e : step iterationAtEnd with
  | next t =>
    exact ⟨_, t, _, _, _, rfl, rfl, by decide +kernel, by decide, e, by rw [e] at h; simp only at h; rw [h]; simp⟩
  | fault f => rw [e] at h; cases h
  | refused r => rw [e] at h; cases h
theorem witness_OnePeriodIsOneTick : ∃ (s u : State) (keys : Word), s.fault = none ∧ s.timerAcc = 0 ∧
    0 < s.rates.timerHz ∧ cpuPart (1 / s.rates.timerHz) (keySample keys s) = .next u ∧
    u.fault = none := by
  have h : (match cpuPart (1 / 60) (keySample 0 { base with rates := ⟨30, 60⟩ }) with
      | .next t => some t.fault
      | .fault _ => none
      | .refused _ => none) = some none := by decide +kernel
  cases e : cpuPart (1 / 60) (keySample 0 { base with rates := ⟨30, 60⟩ }) with
  | next t =>
    exact ⟨{ base with rates := ⟨30, 60⟩ }, t, 0, rfl, rfl, by decide, e, by rw [e] at h; simpa using h⟩
  | fault f => rw [e] at h; cases h
  | refused r => rw [e] at h; cases h

end Sys2Proof.Tests
end

section
/-! PROOFS. The scope statements: a step is a CpuStep, which fetches inside memory or faults at the fetch
(spec/00_scope.md R9; 20_memory.md R61; 60_exceptions.md R232). -/

namespace Sys2Proof

open Machine

/-- The two bytes at an address decode to the instruction of the word there, and no byte is left. -/
theorem decodeWord_word_of_decode {m : Memory} {a : Nat} {i : Instr}
    (h : decode [m.read a, m.read (a + 1)] = .ok (i, [])) : decodeWord (m.word a) = i := by
  rw [decode_cons_cons] at h
  cases h
  rfl

/-- Settles O7: each clause is `cpuStep_inside`, in the state the step takes its CpuStep from. -/
theorem stepRunsDecodedInstruction : Obligations.StepRunsDecodedInstruction := by
  intro s i hrun hpc hdec
  have hi : decodeWord (s.mem.word s.pc.toNat) = i := decodeWord_word_of_decode hdec
  subst hi
  constructor
  · intro hempty
    rw [step_of_empty hempty]
    exact cpuStep_inside hrun hpc
  · intro rest hfirst
    rw [step_of_cpuStep hfirst]
    exact cpuStep_inside hrun hpc

/-- Settles O8: each clause is `cpuStep_outside`, in the state the step takes its CpuStep from. -/
theorem fetchBeyondMemoryFaults : Obligations.FetchBeyondMemoryFaults := by
  intro s hrun hpc
  constructor
  · intro hempty
    rw [step_of_empty hempty]
    exact cpuStep_outside hrun hpc
  · intro rest hfirst
    rw [step_of_cpuStep hfirst]
    exact cpuStep_outside hrun hpc

end Sys2Proof
end

section
/-! PROOFS. The frame of every instruction in the vocabulary of the statements: one rule of `Keeps` per
update of the state, what each instruction may change, and that it changes nothing else
(spec/10_state.md R24 to R40). -/

namespace Sys2Proof.Machine

/-! ### Rules of `Keeps` -/

namespace Keeps

variable {c : MayChange} {s t : State}

theorem refl (c : MayChange) (s : State) : Keeps c s s := by
  constructor <;> intros <;> simp

theorem setReg (h : Keeps c s t) {x : Ix16} (hx : x ∈ c.regs) (b : Byte) : Keeps c s (t.setReg x b) where
  __ := h
  regs k hk := by
    rw [State.reg_setReg, if_neg (ne_of_mem_of_not_mem hx hk).symm]
    exact h.regs k hk

theorem setFlag (h : Keeps c s t) (hf : VF ∈ c.regs) (b : Bool) : Keeps c s (t.setFlag b) :=
  h.setReg hf _

theorem setResult (h : Keeps c s t) {x : Ix16} (hx : x ∈ c.regs) (hf : VF ∈ c.regs) (r : Byte)
    (b : Bool) : Keeps c s (setResult x r b t) := (h.setReg hx r).setFlag hf b

theorem setRegs (h : Keeps c s t) {v : Vector Byte 16} (hv : ∀ k : Ix16, k ∉ c.regs → v[k.val] = t.reg k) :
    Keeps c s { t with v := v } :=
  { h with regs := fun k hk => (hv k hk).trans (h.regs k hk) }

theorem setPc (h : Keeps c s t) (a : Word) : Keeps c s (t.setPc a) := { h with }

theorem skipIf (h : Keeps c s t) (b : Bool) : Keeps c s (skipIf b t) := h.setPc _

theorem retry (h : Keeps c s t) : Keeps c s (retry t) := h.setPc _

theorem raise (h : Keeps c s t) (hc : c.fault = true) (f : Fault) : Keeps c s (raise f t) :=
  { h with fault := fun e => by simp [hc] at e }

theorem setI (h : Keeps c s t) {a : Word} (ha : c.i = false → a = t.i) : Keeps c s { t with i := a } :=
  { h with i := fun e => (ha e).trans (h.i e) }

theorem setStack (h : Keeps c s t) (hc : c.stack = true) (stack : Vector Word 16) (sp : Fin 17) :
    Keeps c s { t with stack := stack, sp := sp } :=
  { h with stack := fun e => by simp [hc] at e }

theorem setMem (h : Keeps c s t) {m : Memory} (hm : ∀ a, a ∉ c.mem → m.read a = t.mem.read a) :
    Keeps c s { t with mem := m } :=
  { h with mem := fun a ha => (hm a ha).trans (h.mem a ha) }

theorem setPix (h : Keeps c s t) (hc : c.pix = true) (d : Display) : Keeps c s { t with pix := d } :=
  { h with pix := fun e => by simp [hc] at e }

theorem setDt (h : Keeps c s t) (hc : c.dt = true) (b : Byte) : Keeps c s { t with dt := b } :=
  { h with dt := fun e => by simp [hc] at e }

theorem setSt (h : Keeps c s t) (hc : c.st = true) (b : Byte) : Keeps c s { t with st := b } :=
  { h with st := fun e => by simp [hc] at e }

theorem setWait (h : Keeps c s t) (hc : c.wait = true) (w : KeyWait) : Keeps c s { t with wait := w } :=
  { h with wait := fun e => by simp [hc] at e }

theorem takeRnd (h : Keeps c s t) (hc : c.rnd = true) : Keeps c s t.takeRnd :=
  { h with rnd := fun e => by simp [hc] at e }

end Keeps

/-! ### What each instruction may change -/

/-- What an instruction may change in state s: its registers, store addresses and fault as the statements
list them, and the other pieces of state by the rules R25, R29, R33, R34, R38 and R246. -/
def mayChange (s : State) (instr : Instr) : MayChange where
  regs := writtenRegs instr
  i := match instr with
    | .ldI _ | .addI _ | .ldF _ => true
    | .storeRegs _ | .loadRegs _ => s.quirks.incI
    | _ => false
  stack := match instr with
    | .call _ | .ret => true
    | _ => false
  mem := storeAddrs s instr
  pix := match instr with
    | .cls | .drw _ _ _ => true
    | _ => false
  dt := match instr with
    | .ldDT _ => true
    | _ => false
  st := match instr with
    | .ldST _ => true
    | _ => false
  wait := match instr with
    | .ldVxK _ => true
    | _ => false
  fault := (faultOf instr).isSome
  rnd := match instr with
    | .rnd _ _ => true
    | _ => false

theorem dataAddr_mem_storeAddrs_ldB {s : State} {k : Nat} (hk : k ≤ 2) (h : dataAddr s k ≤ 4095)
    (x : Ix16) : dataAddr s k ∈ storeAddrs s (.ldB x) := by
  refine List.mem_filter.2 ⟨List.mem_map_of_mem ?_, by simpa using h⟩
  interval_cases k <;> simp

theorem dataAddr_mem_storeAddrs_storeRegs {s : State} {k : Nat} {x : Ix16} (hk : k ≤ x.val)
    (h : dataAddr s k ≤ 4095) : dataAddr s k ∈ storeAddrs s (.storeRegs x) :=
  List.mem_filter.2 ⟨List.mem_map_of_mem (List.mem_range.2 (by omega)), by simpa using h⟩

/-- An instruction changes nothing but what `mayChange` lists, PC apart. -/
theorem exec_keeps {i : Instr} {s t : State} (h : exec i s = .next t) : Keeps (mayChange s i) s t := by
  have same := Keeps.refl (mayChange s i) s
  cases i
  case cls => cases h; exact same.setPix rfl _
  case ldI | ldF => cases h; exact same.setI nofun
  case ldDT x => cases h; exact same.setDt rfl _
  case ldST x => cases h; exact same.setSt rfl _
  case call a =>
    rcases exec_call_cases a s with ⟨hsp, e⟩ | ⟨-, e⟩ <;> cases e.symm.trans h
    · exact (same.setPc (addrWord a)).setStack rfl _ _
    · exact same.raise rfl _
  case ret =>
    rcases exec_ret_cases s with ⟨k, -, e⟩ | ⟨-, e⟩ <;> cases e.symm.trans h
    · exact (same.setPc s.stack[k.val]).setStack rfl _ _
    · exact same.raise rfl _
  case jp | jpV0 => cases h; exact same.setPc _
  case seImm | sneImm | seReg | sneReg => cases h; exact same.skipIf _
  case ldImm | addImm | ldReg | orReg | andReg | xorReg | ldVxDT =>
    cases h; exact same.setReg List.mem_cons_self _
  case addReg | subReg | shr | subnReg | shl =>
    cases h; exact same.setResult List.mem_cons_self (List.mem_cons_of_mem _ List.mem_cons_self) _ _
  case addI x => cases h; exact (same.setI nofun).setFlag List.mem_cons_self _
  case rnd x nn => cases h; exact (same.takeRnd rfl).setReg List.mem_cons_self _
  case nop w => cases h; exact same
  case skp x =>
    rcases exec_skp_cases x s with ⟨k, -, e⟩ | ⟨-, e⟩ <;> cases e.symm.trans h
    · exact same.skipIf _
    · exact same.raise rfl _
  case sknp x =>
    rcases exec_sknp_cases x s with ⟨k, -, e⟩ | ⟨-, e⟩ <;> cases e.symm.trans h
    · exact same.skipIf _
    · exact same.raise rfl _
  case ldVxK x =>
    rcases exec_ldVxK_cases x s with ⟨w, e⟩ | e <;> cases e.symm.trans h
    · exact (same.setWait rfl _).retry
    · exact (same.setWait rfl _).setReg List.mem_cons_self _
  case drw x y n =>
    rcases exec_drw_cases x y n s with ⟨-, e⟩ | ⟨-, e⟩ <;> cases e.symm.trans h
    · exact (same.setPix rfl _).setFlag List.mem_cons_self _
    · exact same.raise rfl _
  case ldB x =>
    obtain ⟨m, e, -, hread⟩ := exec_ldB_cases x s
    have hm : Keeps (mayChange s (.ldB x)) s { s with mem := m } := same.setMem fun a ha =>
      hread a fun k hk hin e => ha (e ▸ dataAddr_mem_storeAddrs_ldB hk hin x)
    rcases e with ⟨-, e⟩ | ⟨-, e⟩ <;> cases e.symm.trans h
    · exact hm
    · exact hm.raise rfl _
  case storeRegs x =>
    obtain ⟨m, i, e, -, hi, hread⟩ := exec_storeRegs_cases x s
    have hm : Keeps (mayChange s (.storeRegs x)) s { s with mem := m, i := i } :=
      (same.setMem fun a ha => hread a fun k hk hin e =>
        ha (e ▸ dataAddr_mem_storeAddrs_storeRegs hk hin)).setI hi
    rcases e with ⟨-, e⟩ | ⟨-, e⟩ <;> cases e.symm.trans h
    · exact hm
    · exact hm.raise rfl _
  case loadRegs x =>
    obtain ⟨v, i, e, hi, hreg⟩ := exec_loadRegs_cases x s
    have hv : Keeps (mayChange s (.loadRegs x)) s { s with v := v, i := i } :=
      (same.setRegs fun k hk => hreg k fun hle => hk (mem_regsUpTo.2 hle.1)).setI hi
    rcases e with ⟨-, e⟩ | ⟨-, e⟩ <;> cases e.symm.trans h
    · exact hv
    · exact hv.raise rfl _

end Sys2Proof.Machine
end

section
/-! PROOFS. The frame statements: PC, the registers and every other piece of state at an instruction
(spec/10_state.md R21 to R40; 40_control_flow.md R128). -/

namespace Sys2Proof.Machine

/-! ### PC -/

/-- PC after a skip whose test decides the condition p. -/
theorem skipIf_pc_of_iff {b : Bool} {p : Prop} (hb : b = true ↔ p) (s : State) :
    (p → (skipIf b s).pc = s.pc + 2) ∧ (¬ p → (skipIf b s).pc = s.pc) := by
  rw [skipIf_pc, ← hb]
  exact ⟨fun h => if_pos h, fun h => if_neg h⟩

/-- A register that holds the number of key k names k and no other key. -/
theorem exists_key_iff {b : Byte} {k : Ix16} (hk : b.toNat = k.val) (p : Ix16 → Prop) :
    (∃ j : Ix16, b.toNat = j.val ∧ p j) ↔ p k := by
  constructor
  · rintro ⟨j, hj, h⟩
    obtain rfl : j = k := Fin.ext (hj.symm.trans hk)
    exact h
  · exact fun h => ⟨k, hk, h⟩

/-- A register above 15 names no key. -/
theorem ne_key_of_outside {b : Byte} (h : 15 < b.toNat) (k : Ix16) : b.toNat ≠ k.val := by omega

/-- Settles O20: a skip goes through `skipIf`; every other instruction that does not set PC leaves it. -/
theorem pcAfterSkipsAndPlainInstructions : Obligations.PcAfterSkipsAndPlainInstructions := by
  intro i s t hset h
  cases i
  case jp | jpV0 | call | ret | ldVxK => cases hset
  case seImm x nn => cases h; exact skipIf_pc_of_iff beq_iff_eq s
  case sneImm x nn => cases h; exact skipIf_pc_of_iff bne_iff_ne s
  case seReg x y => cases h; exact skipIf_pc_of_iff beq_iff_eq s
  case sneReg x y => cases h; exact skipIf_pc_of_iff bne_iff_ne s
  case skp x =>
    rcases exec_skp_cases x s with ⟨k, hk, e⟩ | ⟨hout, e⟩ <;> cases e.symm.trans h
    · exact skipIf_pc_of_iff (exists_key_iff hk fun k => s.keyDown k = true).symm s
    · exact ⟨fun ⟨k, hk, _⟩ => absurd hk (ne_key_of_outside hout k), fun _ => rfl⟩
  case sknp x =>
    rcases exec_sknp_cases x s with ⟨k, hk, e⟩ | ⟨hout, e⟩ <;> cases e.symm.trans h
    · exact skipIf_pc_of_iff
        ((Bool.not_eq_true' _).to_iff.trans (exists_key_iff hk fun k => s.keyDown k = false).symm) s
    · exact ⟨fun ⟨k, hk, _⟩ => absurd hk (ne_key_of_outside hout k), fun _ => rfl⟩
  case drw x y n =>
    rcases exec_drw_cases x y n s with ⟨-, e⟩ | ⟨-, e⟩ <;> cases e.symm.trans h <;>
      exact ⟨False.elim, fun _ => rfl⟩
  case ldB x =>
    obtain ⟨m, ⟨-, e⟩ | ⟨-, e⟩, -⟩ := exec_ldB_cases x s <;> cases e.symm.trans h <;>
      exact ⟨False.elim, fun _ => rfl⟩
  case storeRegs x =>
    obtain ⟨m, i, ⟨-, e⟩ | ⟨-, e⟩, -⟩ := exec_storeRegs_cases x s <;> cases e.symm.trans h <;>
      exact ⟨False.elim, fun _ => rfl⟩
  case loadRegs x =>
    obtain ⟨v, i, ⟨-, e⟩ | ⟨-, e⟩, -⟩ := exec_loadRegs_cases x s <;> cases e.symm.trans h <;>
      exact ⟨False.elim, fun _ => rfl⟩
  all_goals (cases h; exact ⟨False.elim, fun _ => rfl⟩)

/-! ### Registers -/

/-- Settles O21: the registers of the frame of every instruction. -/
theorem registersChangedOnlyIfNamed : Obligations.RegistersChangedOnlyIfNamed :=
  fun _ _ _ k h hk => (exec_keeps h).regs k hk

/-! ### Every other piece of state: which instructions `mayChange` lets write it -/

theorem writer_of_i {s : State} {i : Instr} (h : (mayChange s i).i = true) :
    (∃ a, i = .ldI a) ∨ (∃ x, i = .addI x) ∨ (∃ x, i = .ldF x) ∨
      (s.quirks.incI = true ∧ ∃ x, i = .storeRegs x ∨ i = .loadRegs x) := by
  simp only [mayChange] at h
  split at h
  · exact .inl ⟨_, rfl⟩
  · exact .inr (.inl ⟨_, rfl⟩)
  · exact .inr (.inr (.inl ⟨_, rfl⟩))
  · exact .inr (.inr (.inr ⟨h, _, .inl rfl⟩))
  · exact .inr (.inr (.inr ⟨h, _, .inr rfl⟩))
  · cases h

theorem writer_of_stack {s : State} {i : Instr} (h : (mayChange s i).stack = true) :
    (∃ a, i = .call a) ∨ i = .ret := by
  simp only [mayChange] at h
  split at h
  · exact .inl ⟨_, rfl⟩
  · exact .inr rfl
  · cases h

theorem writer_of_pix {s : State} {i : Instr} (h : (mayChange s i).pix = true) :
    i = .cls ∨ ∃ x y n, i = .drw x y n := by
  simp only [mayChange] at h
  split at h
  · exact .inl rfl
  · exact .inr ⟨_, _, _, rfl⟩
  · cases h

theorem writer_of_dt {s : State} {i : Instr} (h : (mayChange s i).dt = true) : ∃ x, i = .ldDT x := by
  simp only [mayChange] at h
  split at h
  · exact ⟨_, rfl⟩
  · cases h

theorem writer_of_st {s : State} {i : Instr} (h : (mayChange s i).st = true) : ∃ x, i = .ldST x := by
  simp only [mayChange] at h
  split at h
  · exact ⟨_, rfl⟩
  · cases h

theorem writer_of_wait {s : State} {i : Instr} (h : (mayChange s i).wait = true) :
    ∃ x, i = .ldVxK x := by
  simp only [mayChange] at h
  split at h
  · exact ⟨_, rfl⟩
  · cases h

theorem writer_of_rnd {s : State} {i : Instr} (h : (mayChange s i).rnd = true) :
    ∃ x nn, i = .rnd x nn := by
  simp only [mayChange] at h
  split at h
  · exact ⟨_, _, rfl⟩
  · cases h

/-- RET moves SP and leaves the entries. -/
theorem exec_ret_stack {s t : State} (h : exec .ret s = .next t) : t.stack = s.stack := by
  rcases exec_ret_cases s with ⟨k, -, e⟩ | ⟨-, e⟩ <;> cases e.symm.trans h <;> rfl

/-- Settles O22: a piece of state that changed is one `mayChange` lets the instruction write, and of the two
that write the call stack RET leaves its entries. -/
theorem stateChangedOnlyByItsWriters : Obligations.StateChangedOnlyByItsWriters := by
  intro i s t h
  have keeps := exec_keeps h
  refine ⟨fun hne => writer_of_i (Bool.ne_false_iff.1 fun e => hne (keeps.i e)),
    fun hne => ?_,
    fun hne => writer_of_stack (Bool.ne_false_iff.1 fun e => hne (keeps.stack e).2),
    fun hne => writer_of_pix (Bool.ne_false_iff.1 fun e => hne (keeps.pix e)),
    fun hne => writer_of_dt (Bool.ne_false_iff.1 fun e => hne (keeps.dt e)),
    fun hne => writer_of_st (Bool.ne_false_iff.1 fun e => hne (keeps.st e)),
    fun hne => writer_of_wait (Bool.ne_false_iff.1 fun e => hne (keeps.wait e)),
    fun hne => writer_of_rnd (Bool.ne_false_iff.1 fun e =>
      hne.elim (· (keeps.rnd e).1) (· (keeps.rnd e).2)),
    keeps.key, keeps.session.1, keeps.session.2, keeps.time.1, keeps.time.2, keeps.schedule⟩
  rcases writer_of_stack (Bool.ne_false_iff.1 fun e => hne (keeps.stack e).1) with hcall | rfl
  · exact hcall
  · exact absurd (exec_ret_stack h) hne

/-! ### Push and Pop -/

/-- Settles O18: `push_going` and `push_full`, with the frame of each. -/
theorem pushAddsTop : Obligations.PushAddsTop := by
  intro v s
  constructor
  · intro hsp
    refine ⟨_, push_going hsp v, rfl, fun k => ?_, rfl, (Keeps.refl _ s).setStack rfl _ _⟩
    simp only [Vector.getElem_set, eq_comm]
  · intro hfull
    exact ⟨_, push_full hfull v, ⟨rfl, rfl, rfl⟩, (Keeps.refl _ s).raise rfl _⟩

/-- Settles O19: `pop_going` and `pop_empty`, with the frame of each. -/
theorem popTakesTop : Obligations.PopTakesTop := by
  intro use s
  constructor
  · intro k hk
    have hsp : 0 < s.sp.val := by omega
    have htop : s.sp.val - 1 = k.val := by omega
    have hpop := pop_going hsp use
    simp only [htop] at hpop
    exact ⟨_, hpop, rfl, rfl, rfl, (Keeps.refl _ s).setStack rfl _ _⟩
  · intro hempty
    exact ⟨_, pop_empty hempty use, ⟨rfl, rfl, rfl⟩, (Keeps.refl _ s).raise rfl _⟩

end Sys2Proof.Machine
end

section
/-! PROOFS. Every step keeps the invariant of the machine. An instruction is handled for the part of the
invariant that does not speak of the accumulators, since inside a host iteration those run outside their
range; each loop of the iteration then brings its accumulator back below one period
(spec/10_state.md R28, R29, R39, R41; 60_exceptions.md R240, R241). -/

namespace Sys2Proof.Machine

/-! ### The invariant without the accumulators -/

/-- The part of `State.Inv` that does not speak of CPU_ACC and TIMER_ACC. -/
structure State.UntimedInv (s : State) : Prop where
  mem_wf : s.mem.wf
  pc_range : s.pc.toNat ≤ 0x10FE
  stack_range : ∀ k : Fin 16, s.stack[k.val].toNat ≤ 4096
  cpuHz_pos : 0 < s.rates.cpuHz
  timerHz_pos : 0 < s.rates.timerHz
  faultPc_zero : s.fault = none → s.faultPc = 0

namespace State

theorem Inv.untimed {s : State} (h : s.Inv) : s.UntimedInv :=
  ⟨h.mem_wf, h.pc_range, h.stack_range, h.cpuHz_pos, h.timerHz_pos, h.faultPc_zero⟩

theorem UntimedInv.setPc {s : State} (h : s.UntimedInv) {a : Word} (ha : a.toNat ≤ 0x10FE) :
    (s.setPc a).UntimedInv := { h with pc_range := ha }

theorem UntimedInv.setMem {s : State} (h : s.UntimedInv) {m : Memory} (hm : m.wf) :
    UntimedInv { s with mem := m } := { h with mem_wf := hm }

theorem UntimedInv.setCpuAcc {s : State} (h : s.UntimedInv) (acc : Rat) :
    UntimedInv { s with cpuAcc := acc } := { h with }

theorem UntimedInv.raise {s : State} (h : s.UntimedInv) (f : Fault) : (raise f s).UntimedInv :=
  { h with faultPc_zero := fun e => nomatch e }

theorem UntimedInv.skipIf {s : State} (h : s.UntimedInv) (hpc : s.pc.toNat ≤ 4096) (c : Bool) :
    (skipIf c s).UntimedInv := by
  refine h.setPc ?_
  split
  · rw [BitVec.toNat_add]; simp; omega
  · omega

theorem UntimedInv.push {s : State} (h : s.UntimedInv) {v : Word} (hv : v.toNat ≤ 4096)
    (hsp : s.sp.val < 16) (sp : Fin 17) :
    UntimedInv { s with stack := s.stack.set s.sp.val v, sp := sp } where
  __ := h
  stack_range k := by
    simp only [Vector.getElem_set]
    split
    · exact hv
    · exact h.stack_range k

end State

/-! ### Instructions -/

theorem addrWord_toNat_lt (a : Addr12) : (addrWord a).toNat < 4096 := by
  have : (addrWord a).toNat = a.toNat := by simp [addrWord]; omega
  omega

theorem jumpTarget_toNat_le (a : Addr12) (s : State) : (jumpTarget a s).toNat ≤ 0x10FE := by
  have ha := addrWord_toNat_lt a
  have hb : ((jumpOffset a s).zeroExtend 16).toNat ≤ 255 := by simp; omega
  rw [jumpTarget, BitVec.toNat_add]
  omega

/-- An instruction keeps the untimed invariant; while it executes, PC is past the word it was fetched
from. -/
theorem exec_untimedInv {i : Instr} {s t : State} (hs : s.UntimedInv) (hlo : 2 ≤ s.pc.toNat)
    (hhi : s.pc.toNat ≤ 4096) (h : exec i s = .next t) : t.UntimedInv := by
  cases i
  case jp a => cases h; exact hs.setPc (by have := addrWord_toNat_lt a; omega)
  case jpV0 a => cases h; exact hs.setPc (jumpTarget_toNat_le a s)
  case call a =>
    have ha : (addrWord a).toNat ≤ 0x10FE := by have := addrWord_toNat_lt a; omega
    rcases exec_call_cases a s with ⟨hsp, e⟩ | ⟨-, e⟩ <;> cases e.symm.trans h
    · exact (hs.push hhi hsp _).setPc ha
    · exact hs.raise _
  case ret =>
    rcases exec_ret_cases s with ⟨k, -, e⟩ | ⟨-, e⟩ <;> cases e.symm.trans h
    · exact { hs with pc_range := (hs.stack_range k).trans (by decide) }
    · exact hs.raise _
  case seImm x nn => cases h; exact hs.skipIf hhi _
  case sneImm x nn => cases h; exact hs.skipIf hhi _
  case seReg x y => cases h; exact hs.skipIf hhi _
  case sneReg x y => cases h; exact hs.skipIf hhi _
  case skp x =>
    rcases exec_skp_cases x s with ⟨k, -, e⟩ | ⟨-, e⟩ <;> cases e.symm.trans h
    · exact hs.skipIf hhi _
    · exact hs.raise _
  case sknp x =>
    rcases exec_sknp_cases x s with ⟨k, -, e⟩ | ⟨-, e⟩ <;> cases e.symm.trans h
    · exact hs.skipIf hhi _
    · exact hs.raise _
  case ldVxK x =>
    have hback : (s.pc - 2).toNat ≤ 0x10FE := by rw [BitVec.toNat_sub]; simp; omega
    rcases exec_ldVxK_cases x s with ⟨w, e⟩ | e <;> cases e.symm.trans h
    · exact { hs with pc_range := hback }
    · exact { hs with }
  case drw x y n =>
    rcases exec_drw_cases x y n s with ⟨-, e⟩ | ⟨-, e⟩ <;> cases e.symm.trans h
    · exact { hs with }
    · exact hs.raise _
  case ldB x =>
    obtain ⟨m, ⟨-, e⟩ | ⟨-, e⟩, hwf, -⟩ := exec_ldB_cases x s <;> cases e.symm.trans h
    · exact hs.setMem (hwf hs.mem_wf)
    · exact (hs.setMem (hwf hs.mem_wf)).raise _
  case storeRegs x =>
    obtain ⟨m, i, e, hwf, -⟩ := exec_storeRegs_cases x s
    have hm : State.UntimedInv { s with mem := m, i := i } := { hs with mem_wf := hwf hs.mem_wf }
    rcases e with ⟨-, e⟩ | ⟨-, e⟩ <;> cases e.symm.trans h
    · exact hm
    · exact hm.raise _
  case loadRegs x =>
    obtain ⟨v, i, e, -⟩ := exec_loadRegs_cases x s
    have hv : State.UntimedInv { s with v := v, i := i } := { hs with }
    rcases e with ⟨-, e⟩ | ⟨-, e⟩ <;> cases e.symm.trans h
    · exact hv
    · exact hv.raise _
  all_goals (cases h; exact { hs with })

/-- What a CpuStep does: nothing on a faulted CORE, a fetch fault, or one instruction with PC past it. -/
theorem cpuStep_cases {s t : State} (h : cpuStep s = .next t) :
    (s.fault ≠ none ∧ t = s) ∨
    (s.fault = none ∧ 4094 < s.pc.toNat ∧ t = raise .fetchOutOfBounds s) ∨
    (s.fault = none ∧ s.pc.toNat ≤ 4094 ∧
      exec (decodeWord (s.mem.word s.pc.toNat)) (s.setPc (s.pc + 2)) = .next t) := by
  by_cases hf : s.fault = none
  · by_cases hp : s.pc.toNat ≤ 4094
    · exact .inr (.inr ⟨hf, hp, cpuStep_inside hf hp ▸ h⟩)
    · have hp : 4094 < s.pc.toNat := by omega
      rw [cpuStep_outside hf hp] at h
      cases h
      exact .inr (.inl ⟨hf, hp, rfl⟩)
  · rw [cpuStep_of_fault hf] at h
    cases h
    exact .inl ⟨hf, rfl⟩

/-- A CpuStep keeps the untimed invariant. -/
theorem cpuStep_untimedInv {s t : State} (hs : s.UntimedInv) (h : cpuStep s = .next t) :
    t.UntimedInv := by
  rcases cpuStep_cases h with ⟨-, rfl⟩ | ⟨-, -, rfl⟩ | ⟨-, hp, he⟩
  · exact hs
  · exact hs.raise _
  · have hnext : (s.pc + 2).toNat = s.pc.toNat + 2 := by rw [BitVec.toNat_add]; simp; omega
    have hpast : (s.setPc (s.pc + 2)).UntimedInv := hs.setPc (by omega)
    exact exec_untimedInv hpast (by rw [setPc_pc]; omega) (by rw [setPc_pc]; omega) he

/-! ### The clock: each loop of a host iteration brings its accumulator below one period (R240, R241) -/

/-- A CpuStep leaves the accumulators and the rates. -/
theorem cpuStep_clock {s t : State} (h : cpuStep s = .next t) :
    t.cpuAcc = s.cpuAcc ∧ t.timerAcc = s.timerAcc ∧ t.rates = s.rates := by
  rcases cpuStep_cases h with ⟨-, rfl⟩ | ⟨-, -, rfl⟩ | ⟨-, -, he⟩
  · exact ⟨rfl, rfl, rfl⟩
  · exact ⟨rfl, rfl, rfl⟩
  · have keeps := exec_keeps he
    exact ⟨keeps.time.1, keeps.time.2, keeps.session.2⟩

/-- R241: the turns `periodsIn` allows leave less than one period of the accumulated time. -/
theorem lt_periodsIn_succ (acc : Rat) {hz : Rat} (hpos : 0 < hz) :
    acc < (periodsIn acc hz + 1) * (1 / hz) := by
  have hfloor : acc * hz < (acc * hz).floor + 1 := Int.lt_floor_add_one (acc * hz)
  have hle : ((acc * hz).floor : Rat) ≤ periodsIn acc hz := by
    exact_mod_cast Int.self_le_toNat (acc * hz).floor
  rw [mul_one_div, lt_div_iff₀ hpos]
  linarith

/-- An accumulator is not negative and lies below n + 1 periods: at most n turns of its loop are due. -/
def DueAtMost (n : Nat) (acc period : Rat) : Prop := 0 ≤ acc ∧ acc < (n + 1) * period

theorem DueAtMost.turn {n : Nat} {acc period : Rat} (h : DueAtMost (n + 1) acc period)
    (hdue : period ≤ acc) : DueAtMost n (acc - period) period := by
  obtain ⟨-, hlt⟩ := h
  push_cast at hlt
  exact ⟨by linarith, by linarith⟩

theorem dueAtMost_zero {acc period : Rat} : DueAtMost 0 acc period ↔ 0 ≤ acc ∧ acc < period := by
  simp [DueAtMost]

theorem DueAtMost.of_lt {n : Nat} {acc period : Rat} (h : DueAtMost n acc period) (hlt : acc < period) :
    DueAtMost 0 acc period := dueAtMost_zero.2 ⟨h.1, hlt⟩

theorem dueAtMost_periodsIn {acc hz : Rat} (hacc : 0 ≤ acc) (hpos : 0 < hz) :
    DueAtMost (periodsIn acc hz) acc (1 / hz) := ⟨hacc, lt_periodsIn_succ acc hpos⟩

/-- Where the CPU loop stands with n turns left: the untimed invariant, and at most n CpuSteps due unless a
fault is recorded. -/
structure CpuLoopInv (n : Nat) (s : State) : Prop where
  untimed : s.UntimedInv
  cpuAcc_nonneg : 0 ≤ s.cpuAcc
  due : s.fault = none → DueAtMost n s.cpuAcc (1 / s.rates.cpuHz)

/-- The CPU loop ends with no CpuStep due or a fault recorded, and leaves TIMER_ACC and the rates. -/
theorem cpuLoop_inv {n : Nat} {s t : State} (hs : CpuLoopInv n s) (h : cpuLoop n s = .next t) :
    CpuLoopInv 0 t ∧ t.timerAcc = s.timerAcc ∧ t.rates = s.rates := by
  induction n generalizing s with
  | zero => cases h; exact ⟨hs, rfl, rfl⟩
  | succ n ih =>
    rw [cpuLoop] at h
    split at h
    · next hcond =>
      obtain ⟨hdue, hf⟩ := hcond
      have hturn := (hs.due hf).turn hdue
      split at h
      · next u hu =>
        obtain ⟨hacc, htimer, hrates⟩ := cpuStep_clock hu
        have hnext : CpuLoopInv n u :=
          { untimed := cpuStep_untimedInv (hs.untimed.setCpuAcc _) hu
            cpuAcc_nonneg := hacc ▸ hturn.1
            due := fun _ => by rw [hacc, hrates]; exact hturn }
        obtain ⟨hend, htimer', hrates'⟩ := ih hnext h
        exact ⟨hend, htimer'.trans htimer, hrates'.trans hrates⟩
      · cases h
      · cases h
    · next hcond =>
      cases h
      refine ⟨{ hs with due := fun hf => (hs.due hf).of_lt ?_ }, rfl, rfl⟩
      exact lt_of_not_ge fun hle => hcond ⟨hle, hf⟩

/-- Nothing that a TimerTick changes is part of the invariant. -/
theorem timerTick_eq (s : State) : ∃ dt st : Byte, timerTick s = { s with dt := dt, st := st } := by
  unfold timerTick
  split
  · exact ⟨_, _, rfl⟩
  · exact ⟨s.dt, s.st, rfl⟩

/-- The timer loop changes TIMER_ACC, which it leaves with no TimerTick due, and the timers. -/
theorem timerLoop_spec {n : Nat} {s : State} (hs : DueAtMost n s.timerAcc (1 / s.rates.timerHz)) :
    ∃ (acc : Rat) (dt st : Byte), timerLoop n s = { s with timerAcc := acc, dt := dt, st := st } ∧
      DueAtMost 0 acc (1 / s.rates.timerHz) := by
  induction n generalizing s with
  | zero => exact ⟨_, _, _, rfl, hs⟩
  | succ n ih =>
    rw [timerLoop]
    split
    · next hdue =>
      obtain ⟨dt, st, htick⟩ := timerTick_eq { s with timerAcc := s.timerAcc - 1 / s.rates.timerHz }
      rw [htick]
      exact ih (hs.turn hdue)
    · next hdue => exact ⟨_, _, _, rfl, hs.of_lt (lt_of_not_ge hdue)⟩

/-! ### Events -/

namespace State

theorem Inv.raise {s : State} (h : s.Inv) (f : Fault) : (raise f s).Inv :=
  { h with
    cpuAcc_below := nofun
    timerAcc_below := nofun
    faultPc_zero := nofun }

theorem Inv.setMem {s : State} (h : s.Inv) {m : Memory} (hm : m.wf) : Inv { s with mem := m } :=
  { h with mem_wf := hm }

end State

/-- After the CPU loop the invariant holds again once TIMER_ACC is in its range. -/
theorem CpuLoopInv.inv {s : State} (h : CpuLoopInv 0 s) (hnonneg : 0 ≤ s.timerAcc)
    (hbelow : s.fault = none → s.timerAcc < 1 / s.rates.timerHz) : s.Inv :=
  { h.untimed with
    cpuAcc_nonneg := h.cpuAcc_nonneg
    timerAcc_nonneg := hnonneg
    cpuAcc_below := fun hf => (dueAtMost_zero.1 (h.due hf)).2
    timerAcc_below := hbelow }

theorem cpuStep_inv {s t : State} (hs : s.Inv) (h : cpuStep s = .next t) : t.Inv := by
  by_cases hf : s.fault = none
  · obtain ⟨hcpu, htimer, hrates⟩ := cpuStep_clock h
    have hloop : CpuLoopInv 0 t :=
      { untimed := cpuStep_untimedInv hs.untimed h
        cpuAcc_nonneg := hcpu ▸ hs.cpuAcc_nonneg
        due := fun _ => by
          rw [hcpu, hrates]; exact dueAtMost_zero.2 ⟨hs.cpuAcc_nonneg, hs.cpuAcc_below hf⟩ }
    exact hloop.inv (htimer ▸ hs.timerAcc_nonneg) fun _ => by
      rw [htimer, hrates]; exact hs.timerAcc_below hf
  · rw [cpuStep_of_fault hf] at h
    cases h
    exact hs

/-- A KeySample changes the keys only. -/
theorem keySample_eq (keys : Word) (s : State) : ∃ key, keySample keys s = { s with key := key } := by
  unfold keySample
  split
  · exact ⟨_, rfl⟩
  · exact ⟨s.key, rfl⟩

theorem keySample_inv {s : State} (hs : s.Inv) (keys : Word) : (keySample keys s).Inv := by
  obtain ⟨key, e⟩ := keySample_eq keys s
  rw [e]
  exact { hs with }

theorem timerTick_inv {s : State} (hs : s.Inv) : (timerTick s).Inv := by
  obtain ⟨dt, st, e⟩ := timerTick_eq s
  rw [e]
  exact { hs with }

theorem cpuPart_loopInv {s t : State} {dt : Rat} (hs : s.Inv) (hdt : 0 ≤ dt)
    (h : cpuPart dt s = .next t) : CpuLoopInv 0 t ∧ t.timerAcc = s.timerAcc ∧ t.rates = s.rates := by
  have hacc : 0 ≤ s.cpuAcc + dt := add_nonneg hs.cpuAcc_nonneg hdt
  have hstart : CpuLoopInv (periodsIn (s.cpuAcc + dt) s.rates.cpuHz) { s with cpuAcc := s.cpuAcc + dt } :=
    ⟨hs.untimed.setCpuAcc _, hacc, fun _ => dueAtMost_periodsIn hacc hs.cpuHz_pos⟩
  exact (cpuLoop_inv hstart h :)

/-- The timer part takes the state the CPU part left to the invariant. -/
theorem timerPart_inv {s : State} {dt : Rat} (hs : CpuLoopInv 0 s) (hacc : 0 ≤ s.timerAcc + dt) :
    (timerPart dt s).Inv := by
  obtain ⟨acc, dt', st, e, hdue⟩ := timerLoop_spec
    (s := { s with timerAcc := s.timerAcc + dt }) (dueAtMost_periodsIn hacc hs.untimed.timerHz_pos)
  obtain ⟨hnonneg, hlt⟩ := dueAtMost_zero.1 hdue
  rw [timerPart, e]
  exact CpuLoopInv.inv { hs with untimed := { hs.untimed with } } hnonneg fun _ => hlt

theorem hostIteration_inv {s t : State} {dt : Rat} {keys : Word} (hs : s.Inv) (hdt : 0 ≤ dt)
    (h : hostIteration dt keys s = .next t) : t.Inv := by
  rw [hostIteration] at h
  split at h
  · split at h
    · next u hu =>
      obtain ⟨hloop, htimer, hrates⟩ := cpuPart_loopInv (keySample_inv hs keys) hdt hu
      have hacc : 0 ≤ u.timerAcc := htimer ▸ (keySample_inv hs keys).timerAcc_nonneg
      split at h
      · cases h; exact timerPart_inv hloop (add_nonneg hacc hdt)
      · next hf => cases h; exact hloop.inv hacc fun e => absurd e hf
    · cases h
    · cases h
  · cases h; exact hs

/-- The state Reset clears meets the invariant when the session's rates are positive. -/
theorem clearAll_inv {p : Session} (hc : 0 < p.rates.cpuHz) (ht : 0 < p.rates.timerHz) (s : State) :
    (clearAll p s).Inv where
  mem_wf := Memory.nil_wf
  pc_range := by show (0x200 : Word).toNat ≤ 0x10FE; decide
  stack_range k := by simp [clearAll, State.reset]
  cpuHz_pos := hc
  timerHz_pos := ht
  cpuAcc_nonneg := le_rfl
  timerAcc_nonneg := le_rfl
  cpuAcc_below _ := one_div_pos.2 hc
  timerAcc_below _ := one_div_pos.2 ht
  faultPc_zero _ := rfl

theorem loadRom_inv {s : State} (hs : s.Inv) (rom : Option (List Byte)) : (loadRom rom s).state.Inv := by
  cases rom with
  | none => exact hs.raise _
  | some bytes =>
    by_cases hlen : bytes.length ≤ 3584
    · rw [loadRom_fits hlen]
      exact hs.setMem (Memory.writeBytes_wf hs.mem_wf (by omega))
    · rw [loadRom_long (by omega)]
      exact hs.raise _

theorem resetEvent_inv {p : Session} (hc : 0 < p.rates.cpuHz) (ht : 0 < p.rates.timerHz) {s t : State}
    (h : resetEvent p s = .next t) : t.Inv := by
  have hclear := clearAll_inv hc ht s
  have hfont := hclear.setMem (Memory.writeBytes_wf hclear.mem_wf
    (start := 0x50) (bytes := p.font.toList) (by simp))
  rw [resetEvent, loadFont_eq, Flow.going_andThen, Flow.outcome_eq] at h
  cases h
  exact loadRom_inv hfont p.rom

/-- An event within the host's contract keeps the invariant. -/
theorem perform_inv {e : Event} {s t : State} (hs : s.Inv) (h : perform e s = .next t) : t.Inv := by
  unfold perform at h
  split at h
  · next hlegal =>
    cases e with
    | reset p =>
      obtain ⟨hc, ht⟩ : 0 < p.rates.cpuHz ∧ 0 < p.rates.timerHz := by simpa [Event.legal] using hlegal
      exact resetEvent_inv hc ht h
    | keySample keys => cases h; exact keySample_inv hs keys
    | cpuStep => exact cpuStep_inv hs h
    | timerTick => cases h; exact timerTick_inv hs
    | hostIteration dt keys => exact hostIteration_inv hs (of_decide_eq_true hlegal) h
  · cases h

/-- Settles O10: the next event is a CpuStep or the first of the store, and each keeps the invariant. -/
theorem stepKeepsInvariant : Obligations.StepKeepsInvariant := by
  intro s t hs h
  cases hsched : s.schedule with
  | nil => exact cpuStep_inv hs (step_of_empty hsched ▸ h)
  | cons e rest =>
    have hstore : State.Inv { s with schedule := rest } := { hs with }
    exact perform_inv hstore (step_of_event hsched ▸ h)

/-- Settles O11: State.reset is the cleared state of a session with the reference rates. -/
theorem resetMeetsInvariant : Obligations.ResetMeetsInvariant :=
  clearAll_inv (p := ⟨none, Config.defaultFont, Config.legacy, Config.referenceRates⟩)
    (by decide) (by decide) State.reset

end Sys2Proof.Machine
end

section
/-! PROOFS. What memory and the other pieces of state hold after reset, and that canonical memories are
determined by what they read as (spec/10_state.md R32, R37, R43). -/

namespace Sys2Proof.Machine

/-! ### Reset values -/

/-- The reset memory holds the default font at 0x50. -/
theorem unlisted_font (k : Fin 80) : Memory.unlisted (0x50 + k.val) = Config.defaultFont[k.val] := by
  rw [Memory.unlisted, if_pos (by simp), Nat.add_sub_cancel_left]
  exact List.getD_eq_getElem _ _ _

/-- Settles O12: each register has the value its field of State.reset gives, and no address is listed, so that
memory reads as `Memory.unlisted` says. -/
theorem resetStateValues : Obligations.ResetStateValues := by
  refine ⟨rfl, rfl, rfl, fun k => ?_, rfl, rfl, rfl, Display.pixel_clear, fun k => ?_, rfl, rfl, rfl,
    rfl, rfl, fun k => ?_, unlisted_font, fun a ha => Memory.unlisted_outside ha⟩
  · exact Vector.getElem_replicate _
  · exact Vector.getElem_replicate _
  · exact Vector.getElem_replicate _

/-! ### Canonical memory -/

/-- A canonical memory lists exactly the bytes that differ from what an unlisted address reads as. -/
theorem Memory.mem_iff_read {m : Memory} (hm : m.wf) (c : Host.Cell) :
    c ∈ m ↔ m.read c.1 = c.2 ∧ c.2 ≠ Memory.unlisted c.1 := by
  induction m with
  | nil => simpa using fun h => h.symm
  | cons d rest ih =>
    obtain ⟨hd, hrising⟩ := List.pairwise_cons.1 hm.1
    have hrest : Memory.wf rest := ⟨hrising, fun c hc => hm.2 c (List.mem_cons_of_mem d hc)⟩
    rw [List.mem_cons, Memory.read]
    by_cases haddr : c.1 = d.1
    · have hnot : c ∉ rest := fun hc => by have := hd c hc; omega
      have hdiff : d.2 ≠ Memory.unlisted d.1 := (hm.2 d List.mem_cons_self).2
      rw [if_pos haddr, Prod.ext_iff, haddr]
      constructor
      · rintro (⟨-, hbyte⟩ | hc)
        · exact ⟨hbyte.symm, hbyte ▸ hdiff⟩
        · exact absurd hc hnot
      · exact fun h => .inl ⟨rfl, h.1.symm⟩
    · rw [if_neg haddr, ← ih hrest]
      exact or_iff_right fun e => haddr (congrArg Prod.fst e)

/-- Settles O16: canonical memories that read alike list the same cells, and rising lists with the same
cells are equal. -/
theorem canonicalMemoryIsUnique : Obligations.CanonicalMemoryIsUnique := by
  intro m m' hm hm' hread
  have hcells : ∀ c, c ∈ m ↔ c ∈ m' := fun c => by
    rw [Memory.mem_iff_read hm, Memory.mem_iff_read hm', hread]
  have hperm : m.Perm m' := (List.perm_ext_iff_of_nodup
    (hm.1.imp fun h e => by simp [e] at h) (hm'.1.imp fun h e => by simp [e] at h)).2 hcells
  exact hperm.eq_of_pairwise (fun a b _ _ hab hba => absurd hab hba.asymm) hm.1 hm'.1

end Sys2Proof.Machine
end

section
/-! PROOFS. Memory: the loader's block write, the bytes an instruction stores, and that a fetch sees them
(spec/20_memory.md R61 to R75; 42_index_memory.md R164). -/

namespace Sys2Proof.Machine

/-! ### The block write -/

/-- The block write of a block that ends beyond memory. -/
theorem Memory.writeBlock_outside {start : Nat} {bytes : List Byte} (h : 4096 < start + bytes.length)
    (m : Memory) : m.writeBlock start bytes = none := if_pos h

/-- Settles O15: a block that fits is written by `writeBytes`, whose every read `read_writeBytes` gives. -/
theorem writeBlockAllOrNothing : Obligations.WriteBlockAllOrNothing := by
  intro m start bytes
  refine ⟨fun hout => Memory.writeBlock_outside hout m,
    fun hfits => ⟨_, Memory.writeBlock_fits hfits m, fun k hk => ?_, fun a ha => ?_⟩⟩
  · rw [Memory.read_writeBytes, if_pos (by omega), Nat.add_sub_cancel_left]
  · rw [Memory.read_writeBytes, if_neg ha]

/-! ### Stored bytes -/

/-- Settles O23: the memory of the frame of every instruction. -/
theorem memoryChangesOnlyAtStoreAddresses : Obligations.MemoryChangesOnlyAtStoreAddresses :=
  fun _ _ _ a h ha => (exec_keeps h).mem a ha

/-- LD [I] leaves each register it moves at its address, if that lies inside memory, whether or not a later
register faults. -/
theorem exec_storeRegs_read {x k : Ix16} {s t : State} (h : exec (.storeRegs x) s = .next t) (hk : k ≤ x)
    (hin : dataAddr s k.val ≤ 4095) : t.mem.read (dataAddr s k.val) = s.reg k := by
  obtain ⟨u, hstore, -, -, hread, -⟩ := blockStore_spec (regsUpTo x) s.i.toNat 0 s
    (by rw [regsUpTo_val, regsUpTo_length]) (AtBlock.start s)
  have hmem : t.mem = u.mem := by
    rw [exec, execStoreRegs, hstore] at h
    split at h <;> cases h <;> rfl
  rw [hmem]
  exact hread k (mem_regsUpTo.2 hk) hin

/-- LD [I], V0 stores at I and nowhere else. -/
theorem eq_of_mem_storeAddrs_storeV0 {s : State} {a : Nat} (h : a ∈ storeAddrs s (.storeRegs 0)) :
    a = s.i.toNat := by
  simpa [dataAddr] using List.mem_of_mem_filter h

/-! ### The fetch after a store -/

/-- A step from a state that can fetch runs the instruction at PC, with PC past it. -/
theorem step_of_canFetch {s : State} (h : s.canFetch) :
    step s = exec (decodeWord s.nextWord) { s with pc := s.pc + 2 } := by
  obtain ⟨hempty, hrun, hpc⟩ := h
  rw [step_of_empty hempty]
  exact cpuStep_inside hrun hpc

/-- Settles O17: of the two bytes fetched, the one at I reads as V0 (`exec_storeRegs_read`), and the other
lies outside the store's addresses. -/
theorem storeSeenByNextFetch : Obligations.StoreSeenByNextFetch := by
  intro s t u hi h hmem hfetch
  have hstored : u.mem.read s.i.toNat = s.reg 0 := by
    rw [hmem]
    exact exec_storeRegs_read (k := 0) h le_rfl hi
  have hother : ∀ a, a ≠ s.i.toNat → u.mem.read a = s.mem.read a := fun a ha => by
    rw [hmem]
    exact memoryChangesOnlyAtStoreAddresses _ s t a h (mt eq_of_mem_storeAddrs_storeV0 ha)
  rw [step_of_canFetch hfetch, State.nextWord, Memory.word]
  constructor
  · intro hpc
    rw [hpc, hstored, hother _ (by omega)]
  · intro hpc
    rw [hpc, hstored, hother _ (by omega)]

end Sys2Proof.Machine
end

section
/-! PROOFS. The decoder against the encoder: every word decodes to a well-formed instruction with that word
as its encoding, the decoder undoes the encoder, and the NOP words are those of R99
(spec/30_encoding.md R91 to R95, R99). -/

namespace Sys2Proof

/-! ### A word from the fields its format fixes -/

section
variable {w : Word} {op : BitVec 4} (hop : opField w = op.toNat)
include hop

theorem wordNNN_of_opField : wordNNN op (nnnField w) = w := by
  obtain rfl : w.extractLsb' 12 4 = op := BitVec.eq_of_toNat_eq hop
  exact wordNNN_fields w

theorem wordXNN_of_opField : wordXNN op (xField w) (nnField w) = w := by
  obtain rfl : w.extractLsb' 12 4 = op := BitVec.eq_of_toNat_eq hop
  exact wordXNN_fields w

theorem wordXNN_of_fields {nn : Byte} (hnn : (nnField w).toNat = nn.toNat) :
    wordXNN op (xField w) nn = w := by
  obtain rfl : nnField w = nn := BitVec.eq_of_toNat_eq hnn
  exact wordXNN_of_opField hop

theorem wordXYN_of_fields {n : BitVec 4} (hn : (nField w).val = n.toNat) :
    wordXYN op (xField w) (yField w) n = w := by
  obtain rfl : w.extractLsb' 12 4 = op := BitVec.eq_of_toNat_eq hop
  obtain rfl : w.extractLsb' 0 4 = n := BitVec.eq_of_toNat_eq hn
  exact wordXYN_fields w

end

/-! ### What a word decodes to -/

theorem decodeAlu_wf_encode {w : Word} (hop : opField w = 0x8) :
    (decodeAlu w).wf = true ∧ encode (decodeAlu w) = w := by
  unfold decodeAlu
  split
  case h_10 =>
    have hunrec : unrecognised w = true := by
      have hlt := (nField w).isLt
      simp only [imp_false] at *
      simp [unrecognised_eq, hop]
      omega
    exact ⟨hunrec, rfl⟩
  all_goals exact ⟨rfl, wordXYN_of_fields hop ‹_›⟩

theorem decodeKey_wf_encode {w : Word} (hop : opField w = 0xE) :
    (decodeKey w).wf = true ∧ encode (decodeKey w) = w := by
  unfold decodeKey
  split
  case h_3 => exact ⟨by simp_all [Instr.wf, unrecognised_eq], rfl⟩
  all_goals exact ⟨rfl, wordXNN_of_fields hop ‹_›⟩

theorem decodeMisc_wf_encode {w : Word} (hop : opField w = 0xF) :
    (decodeMisc w).wf = true ∧ encode (decodeMisc w) = w := by
  unfold decodeMisc
  split
  case h_10 => exact ⟨by simp_all [Instr.wf, unrecognised_eq], rfl⟩
  all_goals exact ⟨rfl, wordXNN_of_fields hop ‹_›⟩

/-- Settles O4: along the groups of the decoder, each word is put together again from its fields. -/
theorem encodeOfDecode : Obligations.EncodeOfDecode := by
  intro w
  unfold decodeWord
  by_cases hcls : w = 0x00E0#16
  · rw [if_pos hcls]
    exact ⟨rfl, hcls.symm⟩
  rw [if_neg hcls]
  split
  case h_1 hop =>
    split_ifs with hret
    · exact ⟨rfl, hret.symm⟩
    · exact ⟨by simp_all [Instr.wf, unrecognised_eq, ← BitVec.toNat_inj], rfl⟩
  case h_6 hop | h_10 hop =>
    split_ifs with hn
    · exact ⟨rfl, wordXYN_of_fields hop (congrArg Fin.val hn)⟩
    · exact ⟨by simpa [Instr.wf, unrecognised_eq, hop] using hn, rfl⟩
  case h_9 hop => exact decodeAlu_wf_encode hop
  case h_15 hop => exact decodeKey_wf_encode hop
  case h_16 hop => exact decodeMisc_wf_encode hop
  case h_2 hop | h_3 hop | h_11 hop | h_12 hop => exact ⟨rfl, wordNNN_of_opField hop⟩
  case h_4 hop | h_5 hop | h_7 hop | h_8 hop | h_13 hop => exact ⟨rfl, wordXNN_of_opField hop⟩
  case h_14 hop => exact ⟨rfl, wordXYN_of_fields hop rfl⟩
  case h_17 =>
    have hlt : opField w < 16 := (w.extractLsb' 12 4).isLt
    simp only [imp_false] at *
    omega

/-! ### The NOP words -/

/-- The family at every instruction. -/
theorem Laws.RowHit.all : ∀ i : Instr, Statement i
  | .cls => cls
  | .ret => ret
  | .jp nnn => jp nnn
  | .call nnn => call nnn
  | .seImm x nn => seImm x nn
  | .sneImm x nn => sneImm x nn
  | .seReg x y => seReg x y
  | .ldImm x nn => ldImm x nn
  | .addImm x nn => addImm x nn
  | .ldReg x y => ldReg x y
  | .orReg x y => orReg x y
  | .andReg x y => andReg x y
  | .xorReg x y => xorReg x y
  | .addReg x y => addReg x y
  | .subReg x y => subReg x y
  | .shr x y => shr x y
  | .subnReg x y => subnReg x y
  | .shl x y => shl x y
  | .sneReg x y => sneReg x y
  | .ldI nnn => ldI nnn
  | .jpV0 nnn => jpV0 nnn
  | .rnd x nn => rnd x nn
  | .drw x y n => drw x y n
  | .skp x => skp x
  | .sknp x => sknp x
  | .ldVxDT x => ldVxDT x
  | .ldVxK x => ldVxK x
  | .ldDT x => ldDT x
  | .ldST x => ldST x
  | .addI x => addI x
  | .ldF x => ldF x
  | .ldB x => ldB x
  | .storeRegs x => storeRegs x
  | .loadRegs x => loadRegs x
  | .nop w => nop w

theorem exists_eq_nop {i : Instr} (h : i.mnemonic = "NOP") : ∃ w, i = .nop w := by
  cases i
  case nop w => exact ⟨w, rfl⟩
  all_goals simp [Instr.mnemonic] at h

theorem mnemonic_decodeWord_eq_nop_iff (w : Word) :
    (decodeWord w).mnemonic = "NOP" ↔ decodeWord w = .nop w := by
  refine ⟨fun h => ?_, fun h => by rw [h]; rfl⟩
  obtain ⟨v, hv⟩ := exists_eq_nop h
  obtain ⟨-, henc⟩ := encodeOfDecode w
  rw [hv] at henc
  rw [hv, show v = w from henc]

/-- Settles O6: `Laws.RowHit` of the instruction that the word decodes to and encodes. -/
theorem unrecognisedWordsAreNop : Obligations.UnrecognisedWordsAreNop := by
  intro w
  obtain ⟨hwf, henc⟩ := encodeOfDecode w
  obtain ⟨-, hunrec⟩ := Laws.RowHit.all (decodeWord w) hwf
  rw [henc] at hunrec
  exact hunrec.trans (mnemonic_decodeWord_eq_nop_iff w)

/-! ### Decoding an encoding -/

/-- The decoder undoes the encoder: it reads each format's fields back out of the assembled word. -/
theorem decodeWord_encode {i : Instr} (h : i.wf = true) : decodeWord (encode i) = i := by
  cases i
  case cls | ret => decide
  case nop w => exact (unrecognisedWordsAreNop w).1 h
  case ldReg | orReg | andReg | xorReg | addReg | subReg | shr | subnReg | shl =>
    simp [encode, decodeWord, ne_cls_of_opField, decodeAlu]
  case skp | sknp => simp [encode, decodeWord, ne_cls_of_opField, decodeKey]
  case ldVxDT | ldVxK | ldDT | ldST | addI | ldF | ldB | storeRegs | loadRegs =>
    simp [encode, decodeWord, ne_cls_of_opField, decodeMisc]
  all_goals simp [encode, decodeWord, ne_cls_of_opField]

/-- Settles O3: the word by `decodeWord_encode`, and the two bytes join to the word. -/
theorem decodeOfEncode : Obligations.DecodeOfEncode := by
  intro i h
  refine ⟨decodeWord_encode h, fun rest => ?_⟩
  calc decode (encodeBytes i ++ rest)
    _ = .ok (decodeWord (joinBytes (hiByte (encode i)) (loByte (encode i))), rest) := decode_cons_cons ..
    _ = .ok (i, rest) := by rw [joinBytes_hi_lo, decodeWord_encode h]

end Sys2Proof
end

section
/-! PROOFS. The decoder against the opcode map: the bits that a row fixes decide the instruction
(spec/30_encoding.md R94 to R96). -/

namespace Sys2Proof

/-! ### The bits that the opcode map fixes -/

/-- The bits that the opcode map fixes in the words of a group. -/
def groupMask : Nat → Word
  | 0x0 => 0xFFFF
  | 0x5 | 0x8 | 0x9 => 0xF00F
  | 0xE | 0xF => 0xF0FF
  | _ => 0xF000

theorem mask_eq_groupMask : ∀ r ∈ opRows, r.mask = groupMask (opField r.value) := by decide

theorem opField_and_groupMask (w : Word) (g : Nat) : opField (w &&& groupMask g) = opField w := by
  have hmask : (groupMask g).extractLsb' 12 4 = BitVec.allOnes 4 := by
    unfold groupMask
    split <;> rfl
  rw [opField, BitVec.extractLsb'_and, hmask, BitVec.and_allOnes, opField]

theorem nField_and_mask (w : Word) : nField (w &&& 0xF00F) = nField w := by
  have hmask : (0xF00F : Word).extractLsb' 0 4 = BitVec.allOnes 4 := rfl
  rw [nField, BitVec.extractLsb'_and, hmask, BitVec.and_allOnes, nField]

theorem nnField_and_mask (w : Word) : nnField (w &&& 0xF0FF) = nnField w := by
  have hmask : (0xF0FF : Word).extractLsb' 0 8 = BitVec.allOnes 8 := rfl
  rw [nnField, BitVec.extractLsb'_and, hmask, BitVec.and_allOnes, nnField]

/-! ### They decide the mnemonic -/

theorem mnemonic_decodeAlu_congr {v w : Word} (h : nField v = nField w) :
    (decodeAlu v).mnemonic = (decodeAlu w).mnemonic := by
  unfold decodeAlu
  rw [h]
  split <;> rfl

theorem mnemonic_decodeKey_congr {v w : Word} (h : nnField v = nnField w) :
    (decodeKey v).mnemonic = (decodeKey w).mnemonic := by
  unfold decodeKey
  rw [h]
  split <;> rfl

theorem mnemonic_decodeMisc_congr {v w : Word} (h : nnField v = nnField w) :
    (decodeMisc v).mnemonic = (decodeMisc w).mnemonic := by
  unfold decodeMisc
  rw [h]
  split <;> rfl

/-- Clearing the bits that a word's group leaves free keeps the mnemonic. -/
theorem mnemonic_decodeWord_and_groupMask (w : Word) :
    (decodeWord (w &&& groupMask (opField w))).mnemonic = (decodeWord w).mnemonic := by
  by_cases h0 : opField w = 0
  · rw [h0, show groupMask 0 = BitVec.allOnes 16 from rfl, BitVec.and_allOnes]
  have hop := opField_and_groupMask w (opField w)
  have hop0 : opField (w &&& groupMask (opField w)) ≠ 0 := hop.trans_ne h0
  rw [decodeWord, decodeWord, if_neg (ne_cls_of_opField h0), if_neg (ne_cls_of_opField hop0), hop]
  split
  case h_1 hg => exact absurd hg h0
  case h_6 hg | h_10 hg =>
    rw [hg, groupMask, nField_and_mask]
    split <;> rfl
  case h_9 hg => exact mnemonic_decodeAlu_congr (hg ▸ nField_and_mask w)
  case h_15 hg => exact mnemonic_decodeKey_congr (hg ▸ nnField_and_mask w)
  case h_16 hg => exact mnemonic_decodeMisc_congr (hg ▸ nnField_and_mask w)
  all_goals rfl

theorem mnemonic_decodeWord_value : ∀ r ∈ opRows, (decodeWord r.value).mnemonic = r.mnemonic := by
  decide

/-- A word that matches a row decodes to the row's instruction. -/
theorem mnemonic_decodeWord_of_hit {r : OpRow} (hr : r ∈ opRows) {w : Word}
    (hit : w &&& r.mask = r.value) : (decodeWord w).mnemonic = r.mnemonic := by
  rw [mask_eq_groupMask r hr] at hit
  have hop : opField w = opField r.value := by
    rw [← opField_and_groupMask w (opField r.value), hit]
  rw [← mnemonic_decodeWord_and_groupMask, hop, hit]
  exact mnemonic_decodeWord_value r hr

/-! ### The rows and the mnemonics -/

theorem mnemonic_ne_nop : ∀ r ∈ opRows, r.mnemonic ≠ "NOP" := by decide

theorem exists_row_or_nop (i : Instr) : (∃ r ∈ opRows, r.mnemonic = i.mnemonic) ∨ i.mnemonic = "NOP" := by
  have h : i.mnemonic ∈ opRows.map OpRow.mnemonic ++ ["NOP"] := by cases i <;> exact List.elem_iff.1 rfl
  simpa using h

/-- Settles O5: a row that holds the word names what it decodes to (`mnemonic_decodeWord_of_hit`), and the row
so named holds it, since it holds the encoding (`Laws.RowHit`). -/
theorem decodeFollowsOpcodeMap : Obligations.DecodeFollowsOpcodeMap := by
  intro w
  obtain ⟨hwf, henc⟩ := encodeOfDecode w
  obtain ⟨hhit, -⟩ := Laws.RowHit.all (decodeWord w) hwf
  rw [henc] at hhit
  refine ⟨fun r hr => ⟨mnemonic_decodeWord_of_hit hr, fun h => hhit r hr h.symm⟩, ?_⟩
  rw [← mnemonic_decodeWord_eq_nop_iff]
  constructor
  · intro hmiss
    refine (exists_row_or_nop (decodeWord w)).resolve_left ?_
    rintro ⟨r, hr, hname⟩
    exact hmiss r hr (hhit r hr hname)
  · intro hnop r hr hit
    exact mnemonic_ne_nop r hr ((mnemonic_decodeWord_of_hit hr hit).symm.trans hnop)

end Sys2Proof
end

section
/-! PROOFS. The fields of a word, the spec's own words, and that every instruction answers a next state
(spec/30_encoding.md R91, R95, R99; 60_exceptions.md R229). -/

namespace Sys2Proof

open Machine

/-- Settles O26: an instruction that can fault ends in a `Flow`, whose outcome is a next state, or in one of
the next states its law of cases lists; any other answers one by definition. -/
theorem everyInstructionAnswersNext : Obligations.EveryInstructionAnswersNext := by
  intro i s
  cases i
  case call | ret | skp | sknp | ldB | storeRegs | loadRegs => exact ⟨_, Flow.outcome_eq _⟩
  case ldVxK x => rcases exec_ldVxK_cases x s with ⟨w, e⟩ | e <;> exact ⟨_, e⟩
  case drw x y n => rcases exec_drw_cases x y n s with ⟨-, e⟩ | ⟨-, e⟩ <;> exact ⟨_, e⟩
  all_goals exact ⟨_, rfl⟩

/-- Settles O1: ten closed words. -/
theorem decodesSpecWords : Obligations.DecodesSpecWords := by
  unfold Obligations.DecodesSpecWords
  decide

/-- Settles O2: the word in each of the formats XYN, XNN and NNN, and as two bytes. -/
theorem fieldsOfAWord : Obligations.FieldsOfAWord := by
  rintro op x y n w rfl
  have hxyn : (op ++ x ++ y ++ n : Word) = wordXYN op x.toFin y.toFin n := rfl
  have hxnn : (op ++ x ++ y ++ n : Word) = wordXNN op x.toFin (y ++ n) := wordXYN_eq ..
  have hnnn : (op ++ x ++ y ++ n : Word) = wordNNN op (x ++ (y ++ n)) := hxnn.trans (wordXNN_eq ..)
  have hnn : nnField (op ++ x ++ y ++ n : Word) = y ++ n := by rw [hxnn, nnField_wordXNN]
  have hassoc : (x ++ (y ++ n) : Addr12) = x ++ y ++ n := BitVec.append_assoc.symm
  have hhi : hiByte (op ++ x ++ y ++ n : Word) = op ++ x := by
    rw [hxnn]
    exact BitVec.extractLsb'_append_eq_left
  refine ⟨?_, ?_, ?_, ?_, hnn, ?_, ?_, hhi, hnn⟩
  · rw [hxyn, opField_wordXYN]
  · rw [hxyn, xField_wordXYN]
  · rw [hxyn, yField_wordXYN]
  · rw [hxyn, nField_wordXYN]
  · rw [hnnn, nnnField_wordNNN, hassoc]
  · rw [hnn, hnnn, nnnField_wordNNN]

end Sys2Proof
end

section
/-! PROOFS. The control-flow instructions: NOP, the jumps, CALL and RET with the faults of the call stack, and
the four register skips (spec/40_control_flow.md R120 to R129). -/

namespace Sys2Proof.Machine

/-! ### Addresses -/

theorem addrWord_toNat (nnn : Addr12) : (addrWord nnn).toNat = nnn.toNat :=
  BitVec.toNat_setWidth_of_le (by decide)

/-- Of the addresses that NNN can hold, 4095 is the only one at which no word can be fetched (R61). -/
theorem lt_toNat_addr12_iff (nnn : Addr12) : 4094 < nnn.toNat ↔ nnn = 0xFFF := by
  have hlast : nnn = 0xFFF ↔ nnn.toNat = 4095 := BitVec.toNat_inj.symm
  rw [hlast]
  omega

/-- NNN as the nibble X above the byte NN (30_encoding.md R91). -/
theorem toNat_nibble_append_byte (x : BitVec 4) (nn : Byte) :
    (x ++ nn : Addr12).toNat = x.toNat * 256 + nn.toNat := by
  rw [BitVec.toNat_append, ← Nat.shiftLeft_add_eq_or_of_lt nn.isLt, Nat.shiftLeft_eq]

theorem highNibble_append (x : BitVec 4) (nn : Byte) : highNibble (x ++ nn) = x.toFin :=
  congrArg BitVec.toFin BitVec.extractLsb'_append_eq_left

/-- The sum of NNN and a byte fits the 16 bits of PC, so that PC does not wrap (R129). -/
theorem jumpTarget_toNat (nnn : Addr12) (s : State) :
    (jumpTarget nnn s).toNat = nnn.toNat + (jumpOffset nnn s).toNat := by
  have hoffset : ((jumpOffset nnn s).zeroExtend 16).toNat = (jumpOffset nnn s).toNat :=
    BitVec.toNat_setWidth_of_le (by decide)
  rw [jumpTarget, BitVec.toNat_add, addrWord_toNat, hoffset]
  omega

/-! ### Jumps and NOP -/

/-- Settles O34: the unreduced sum of `jumpTarget_toNat`, whose register is the one the nibble X of NNN names. -/
theorem offsetJumpAddsRegister : Obligations.OffsetJumpAddsRegister := by
  intro x nn s
  refine ⟨_, rfl, ?_, (Keeps.refl _ s).setPc _⟩
  rw [setPc_pc, jumpTarget_toNat, toNat_nibble_append_byte, jumpOffset, highNibble_append,
    apply_ite BitVec.toNat]

/-- Settles O28: an unrecognised word is a NOP word, and NOP answers the state it is given. -/
theorem nopOnlyAdvances : Obligations.NopOnlyAdvances :=
  fun w _ hw => ⟨(unrecognisedWordsAreNop w).1 hw, rfl⟩

/-- Settles O30: 1NNN is the encoding of JP NNN, and PC becomes NNN in 16 bits. -/
theorem jpJumps : Obligations.JpJumps := by
  intro nnn s
  refine ⟨decodeWord_encode (i := .jp nnn) rfl, _, rfl, addrWord_toNat nnn, ?_, (Keeps.refl _ s).setPc _⟩
  rw [setPc_pc, addrWord_toNat, lt_toNat_addr12_iff]

/-! ### Subroutines -/

/-- Settles O29: with an entry on the stack, `exec_ret_cases` leaves the case that pops entry k. -/
theorem retReturnsToTop : Obligations.RetReturnsToTop := by
  intro s k hk
  rcases exec_ret_cases s with ⟨j, hj, e⟩ | ⟨hempty, -⟩
  · obtain rfl : j = k := by omega
    exact ⟨_, e, rfl, rfl, rfl, ((Keeps.refl _ s).setPc s.stack[j.val]).setStack rfl _ _⟩
  · omega

/-- Settles O31: below the full stack, `exec_call_cases` leaves the case that pushes at entry k. -/
theorem callPushesReturnAddress : Obligations.CallPushesReturnAddress := by
  intro nnn s k hk
  rcases exec_call_cases nnn s with ⟨hroom, e⟩ | ⟨hfull, -⟩
  · refine ⟨_, e, addrWord_toNat nnn, congrArg (· + 1) hk, ?_, fun j hj => ?_,
      ((Keeps.refl _ s).setPc (addrWord nnn)).setStack rfl _ _⟩
    · simp only [hk, Vector.getElem_set_self]
    · have hne : s.sp.val ≠ j.val := by omega
      exact Vector.getElem_set_ne hroom j.isLt hne
  · omega

/-- A fault of the execute phase changes FAULT and FAULT_PC only (60_exceptions.md R222). -/
theorem raise_raised_keeps (f : Fault) (s : State) :
    Raised f s (raise f s) ∧ Keeps { fault := true } s (raise f s) :=
  ⟨⟨rfl, rfl, rfl⟩, (Keeps.refl _ s).raise rfl f⟩

/-- Settles O32: the stack pointer leaves the faulting case of `exec_call_cases` and of `exec_ret_cases`. -/
theorem stackFaultsStop : Obligations.StackFaultsStop := by
  intro s
  constructor
  · intro hfull nnn
    rcases exec_call_cases nnn s with ⟨hroom, -⟩ | ⟨-, e⟩
    · omega
    · exact ⟨_, e, raise_raised_keeps _ s⟩
  · intro hempty
    rcases exec_ret_cases s with ⟨k, hk, -⟩ | ⟨-, e⟩
    · omega
    · exact ⟨_, e, raise_raised_keeps _ s⟩

/-! ### Skips -/

/-- What a skip answers whose test decides the condition p (R128). -/
theorem exists_next_of_skipIf {i : Instr} {s : State} {b : Bool} {p : Prop} [Decidable p]
    (h : exec i s = .next (skipIf b s)) (hb : b = true ↔ p) :
    ∃ t, exec i s = .next t ∧ t.pc = (if p then s.pc + 2 else s.pc) ∧ Keeps {} s t := by
  refine ⟨_, h, ?_, (Keeps.refl _ s).skipIf b⟩
  simp only [skipIf_pc, hb]

/-- What a skip answers that the condition p keeps from skipping. -/
theorem exists_next_of_skipIf_not {i : Instr} {s : State} {b : Bool} {p : Prop} [Decidable p]
    (h : exec i s = .next (skipIf b s)) (hb : b = true ↔ ¬ p) :
    ∃ t, exec i s = .next t ∧ t.pc = (if p then s.pc else s.pc + 2) ∧ Keeps {} s t := by
  simpa only [ite_not] using exists_next_of_skipIf h hb

/-- Settles O33: SE tests that the operands are equal, SNE that they differ. -/
theorem skipsCompareOperands : Obligations.SkipsCompareOperands :=
  fun _ _ _ _ =>
    ⟨exists_next_of_skipIf rfl beq_iff_eq, exists_next_of_skipIf_not rfl bne_iff_ne,
     exists_next_of_skipIf rfl beq_iff_eq, exists_next_of_skipIf_not rfl bne_iff_ne⟩

end Sys2Proof.Machine
end

section
/-! PROOFS. The load, arithmetic and logic instructions: what the registers hold after a result and its flag,
the numbers of the flags and of the wrapped results, and the instructions one by one
(spec/10_state.md R22 to R24; 41_arith_logic.md R140 to R152). -/

namespace Sys2Proof.Machine

/-! ### A result and its flag in the registers (R23, R152) -/

theorem setReg_keeps (x : Ix16) (r : Byte) (s : State) : Keeps { regs := [x] } s (s.setReg x r) :=
  (Keeps.refl _ s).setReg List.mem_cons_self r

theorem setResult_keeps (x : Ix16) (r : Byte) (c : Bool) (s : State) :
    Keeps { regs := [x, VF] } s (setResult x r c s) :=
  (Keeps.refl _ s).setResult List.mem_cons_self (List.mem_cons_of_mem _ List.mem_cons_self) r c

/-- The flag is written last, so that it stands in VF for every destination, VF included. -/
@[simp] theorem State.reg_setResult_flag (s : State) (x : Ix16) (r : Byte) (c : Bool) :
    (setResult x r c s).reg VF = flagByte c := by
  rw [State.reg_setResult, if_pos rfl]

theorem State.reg_setResult_of_ne {x : Ix16} (hx : x ≠ VF) (s : State) (r : Byte) (c : Bool) :
    (setResult x r c s).reg x = r := by
  rw [State.reg_setResult, if_neg hx, if_pos rfl]

/-! ### Flags and results as numbers -/

theorem flagByte_toNat (c : Bool) : (flagByte c).toNat = c.toNat := by
  cases c <;> rfl

/-- The flag of a condition, in the vocabulary of the statements. -/
theorem flagByte_decide_toNat (p : Prop) [Decidable p] : (flagByte (decide p)).toNat = flagValue p := by
  rw [flagByte_toNat, Bool.toNat, Bool.cond_decide, flagValue]

theorem flagByte_carries_toNat (a b : Byte) :
    (flagByte (carries a b)).toNat = flagValue (a.toNat + b.toNat > 255) := flagByte_decide_toNat _

theorem flagByte_noBorrow_toNat (a b : Byte) :
    (flagByte (noBorrow a b)).toNat = flagValue (a.toNat ≥ b.toNat) := flagByte_decide_toNat _

theorem flagByte_lowBit_toNat (b : Byte) : (flagByte (lowBit b)).toNat = b.toNat % 2 := by
  rw [flagByte_toNat, lowBit, BitVec.getLsbD, Nat.toNat_testBit, Nat.pow_zero, Nat.div_one]

theorem flagByte_highBit_toNat (b : Byte) : (flagByte (highBit b)).toNat = b.toNat / 128 := by
  rw [flagByte_toNat, highBit, BitVec.getLsbD, Nat.toNat_testBit]
  omega

/-- The wrapped difference of two bytes is the integer difference mod 256. -/
theorem toNat_sub_byte (a b : Byte) : ((a - b).toNat : Int) = (a.toNat - b.toNat : Int) % 256 := by
  rw [BitVec.toNat_sub]
  omega

theorem toNat_ushiftRight_one (b : Byte) : (b >>> 1).toNat = b.toNat / 2 := by
  rw [BitVec.toNat_ushiftRight, Nat.shiftRight_one]

theorem toNat_shiftLeft_one (b : Byte) : (b <<< 1).toNat = b.toNat * 2 % 256 := by
  rw [BitVec.toNat_shiftLeft, Nat.shiftLeft_eq]

/-! ### Loads, copies and logic: a register write -/

/-- Settles O35: 6XNN is the encoding of LD Vx,NN, which writes the one register. -/
theorem loadImmediateWrites : Obligations.LoadImmediateWrites :=
  fun x nn _ => ⟨decodeWord_encode (i := .ldImm x.toFin nn) rfl, _, rfl, State.reg_setReg_same .., rfl,
    setReg_keeps ..⟩

/-- Settles O36: the sum of bytes is the sum mod 256, and no other register is written. -/
theorem addImmediateWraps : Obligations.AddImmediateWraps := by
  intro x nn s
  refine ⟨_, rfl, ?_, rfl, setReg_keeps ..⟩
  rw [State.reg_setReg_same, BitVec.toNat_add]

/-- Settles O37: each instruction writes the one register, and the bits of its result are those of the bitwise
operation. -/
theorem copyAndLogicWriteResult : Obligations.CopyAndLogicWriteResult := by
  intro x y s
  refine ⟨⟨_, rfl, State.reg_setReg_same .., rfl, setReg_keeps ..⟩,
    ⟨_, rfl, rfl, setReg_keeps .., fun b _ => ?or⟩,
    ⟨_, rfl, rfl, setReg_keeps .., fun b _ => ?and⟩,
    ⟨_, rfl, rfl, setReg_keeps .., fun b _ => ?xor⟩⟩
  case or => rw [State.reg_setReg_same, BitVec.getLsbD_or]
  case and => rw [State.reg_setReg_same, BitVec.getLsbD_and]
  case xor => rw [State.reg_setReg_same, BitVec.getLsbD_xor]

/-! ### Arithmetic and shifts: a result, then its flag -/

/-- Settles O38: the carry stands in VF for every X, and the sum in VX unless the carry has replaced it. -/
theorem addSetsCarry : Obligations.AddSetsCarry := by
  intro x y s
  refine ⟨_, rfl, rfl, ?flag, fun hx => ?sum, setResult_keeps ..⟩
  case flag => rw [State.reg_setResult_flag, flagByte_carries_toNat]
  case sum => rw [State.reg_setResult_of_ne hx, BitVec.toNat_add]

/-- What a subtraction answers that writes a - b to VX and the missing borrow to VF. -/
theorem exists_next_of_subtraction {i : Instr} {s : State} {x : Ix16} {a b : Byte}
    (h : exec i s = .next (setResult x (a - b) (noBorrow a b) s)) :
    ∃ t, exec i s = .next t ∧ t.pc = s.pc ∧ (t.reg VF).toNat = flagValue (a.toNat ≥ b.toNat) ∧
      (x ≠ VF → ((t.reg x).toNat : Int) = (a.toNat - b.toNat : Int) % 256) ∧
      Keeps { regs := [x, VF] } s t := by
  refine ⟨_, h, rfl, ?flag, fun hx => ?difference, setResult_keeps ..⟩
  case flag => rw [State.reg_setResult_flag, flagByte_noBorrow_toNat]
  case difference => rw [State.reg_setResult_of_ne hx, toNat_sub_byte]

/-- Settles O39: SUB and SUBN are one subtraction with the operands exchanged. -/
theorem subtractionsSetNoBorrow : Obligations.SubtractionsSetNoBorrow :=
  fun _ _ _ => ⟨exists_next_of_subtraction rfl, exists_next_of_subtraction rfl⟩

/-- Settles O40: b is the operand that `shiftSource` selects; SHR halves it, SHL doubles it mod 256, and each
flags the bit it drops. -/
theorem shiftsSetShiftedOutBit : Obligations.ShiftsSetShiftedOutBit := by
  intro x y s b hb
  obtain rfl : b = shiftSource x y s := hb
  refine ⟨⟨_, rfl, rfl, ?lowBit, fun hx => ?half, setResult_keeps ..⟩,
    ⟨_, rfl, rfl, ?highBit, fun hx => ?double, setResult_keeps ..⟩⟩
  case lowBit => rw [State.reg_setResult_flag, flagByte_lowBit_toNat]
  case half => rw [State.reg_setResult_of_ne hx, toNat_ushiftRight_one]
  case highBit => rw [State.reg_setResult_flag, flagByte_highBit_toNat]
  case double => rw [State.reg_setResult_of_ne hx, toNat_shiftLeft_one]

end Sys2Proof.Machine
end

section
/-! PROOFS. Index register and memory: LD I, ADD I, LD F, the decimal store, and the block store and load, with
their faults at the end of memory (spec/42_index_memory.md R160 to R166; 20_memory.md R62, R63). -/

namespace Sys2Proof.Machine

/-! ### The index register (R160 to R162) -/

theorem flagByte_beyondAddr12_toNat (a : Word) (b : Byte) :
    (flagByte (beyondAddr12 a b)).toNat = flagValue (a.toNat + b.toNat > 0x0FFF) := flagByte_decide_toNat _

/-- The sum of I and a byte wraps at 65536 (R161). -/
theorem toNat_add_zeroExtend_byte (a : Word) (b : Byte) :
    (a + b.zeroExtend 16).toNat = (a.toNat + b.toNat) % 65536 := by
  have hb : (b.zeroExtend 16).toNat = b.toNat := BitVec.toNat_setWidth_of_le (by decide)
  rw [BitVec.toNat_add, hb]

/-- The glyphs lie five bytes apart, and all sixteen fit below the wrap (R162). -/
theorem glyphAddr_toNat (b : Byte) : (glyphAddr b).toNat = 0x50 + 5 * (b.toNat % 16) := by
  have hdigit : ((b.extractLsb' 0 4).zeroExtend 16).toNat = b.toNat % 16 :=
    BitVec.toNat_setWidth_of_le (by decide)
  rw [glyphAddr, BitVec.toNat_add, BitVec.toNat_mul, hdigit]
  simp only [BitVec.reduceToNat]
  omega

/-- Settles O41: NNN in 16 bits, and the wrapped sum, whose flag tests the operands before they are added. -/
theorem indexLoadAndAdd : Obligations.IndexLoadAndAdd := by
  intro nnn x s
  refine ⟨⟨_, rfl, addrWord_toNat nnn, rfl, (Keeps.refl _ s).setI nofun⟩,
    _, rfl, rfl, toNat_add_zeroExtend_byte _ _, ?flag, Keeps.setFlag ?sum List.mem_cons_self _⟩
  case flag => rw [State.reg_setFlag, if_pos rfl, flagByte_beyondAddr12_toNat]
  case sum => exact (Keeps.refl _ s).setI nofun

/-- Settles O42: FX29 is the encoding of LD F,Vx, and I becomes the glyph's address. -/
theorem glyphAddressOfDigit : Obligations.GlyphAddressOfDigit :=
  fun x s => ⟨decodeWord_encode (i := .ldF x.toFin) rfl, _, rfl, glyphAddr_toNat _, rfl,
    (Keeps.refl _ s).setI nofun⟩

/-! ### The addresses of a store (R166) -/

theorem dataAddr_mem_range (s : State) {k n : Nat} (hk : k < n) :
    dataAddr s k ∈ (List.range n).map (dataAddr s) :=
  List.mem_map_of_mem (List.mem_range.2 hk)

theorem dataAddr_mem_range_inside (s : State) {k n : Nat} (hk : k < n) (hin : dataAddr s k ≤ 4095) :
    dataAddr s k ∈ ((List.range n).map (dataAddr s)).filter (· ≤ 4095) :=
  List.mem_filter.2 ⟨dataAddr_mem_range s hk, decide_eq_true hin⟩

/-! ### The decimal store (R163) -/

theorem hundreds_toNat (b : Byte) : (hundreds b).toNat = b.toNat / 100 := by
  rw [hundreds, BitVec.toNat_ofNat]
  omega

theorem tens_toNat (b : Byte) : (tens b).toNat = b.toNat / 10 % 10 := by
  rw [tens, BitVec.toNat_ofNat]
  omega

theorem ones_toNat (b : Byte) : (ones b).toNat = b.toNat % 10 := by
  rw [ones, BitVec.toNat_ofNat]
  omega

/-- A later store, done or faulted, leaves the bytes at other addresses as the stores before it left them. -/
theorem read_andThen_memWrite_other (f : Flow) {a a' : Nat} (h : a' ≠ a) (b : Byte) :
    (f.andThen (memWrite a b)).state.mem.read a' = f.state.mem.read a' := by
  cases f with
  | raised s => rfl
  | going s =>
    rw [Flow.going_andThen]
    by_cases hin : a ≤ 4095
    · rw [memWrite_inside hin]
      exact Memory.read_write_other _ h b
    · rw [memWrite_outside (by omega)]
      rfl

/-- LD B leaves each digit at its address, if that lies inside memory, whether or not a later digit faults. -/
theorem exec_ldB_digits {x : Ix16} {s t : State} (h : exec (.ldB x) s = .next t) :
    (dataAddr s 0 ≤ 4095 → (t.mem.read (dataAddr s 0)).toNat = (s.reg x).toNat / 100) ∧
    (dataAddr s 1 ≤ 4095 → (t.mem.read (dataAddr s 1)).toNat = (s.reg x).toNat / 10 % 10) ∧
    (dataAddr s 2 ≤ 4095 → (t.mem.read (dataAddr s 2)).toNat = (s.reg x).toNat % 10) := by
  have h01 : dataAddr s 1 = dataAddr s 0 + 1 := rfl
  have h12 : dataAddr s 2 = dataAddr s 1 + 1 := rfl
  rw [exec, execLdB, Flow.outcome_eq] at h
  cases h
  rw [← hundreds_toNat, ← tens_toNat, ← ones_toNat]
  refine ⟨fun h0 => congrArg _ ?hundreds, fun h1 => congrArg _ ?tens, fun h2 => congrArg _ ?ones⟩
  case hundreds =>
    rw [read_andThen_memWrite_other _ (by omega), read_andThen_memWrite_other _ (by omega),
      memWrite_inside h0]
    exact Memory.read_write_same _ _ _
  case tens =>
    rw [read_andThen_memWrite_other _ (by omega), memWrite_inside (by omega), Flow.going_andThen,
      memWrite_inside h1]
    exact Memory.read_write_same _ _ _
  case ones =>
    rw [memWrite_inside (by omega), Flow.going_andThen, memWrite_inside (by omega), Flow.going_andThen,
      memWrite_inside h2]
    exact Memory.read_write_same _ _ _

/-- Settles O43: with I + 2 inside memory, `exec_ldB_cases` leaves the case without a fault. -/
theorem bcdStoresDigits : Obligations.BcdStoresDigits := by
  intro x s hin
  obtain ⟨m, ⟨-, e⟩ | ⟨hout, -⟩, -, hframe⟩ := exec_ldB_cases x s
  · obtain ⟨hhundreds, htens, hones⟩ := exec_ldB_digits e
    have h1 : dataAddr s 1 ≤ 4095 := by unfold dataAddr; omega
    have h0 : dataAddr s 0 ≤ 4095 := Nat.le_of_succ_le h1
    exact ⟨_, e, rfl, hhundreds h0, htens h1, hones hin, (Keeps.refl _ s).setMem fun a ha =>
      hframe a fun k hk _ hak => ha (hak ▸ dataAddr_mem_range s (Nat.lt_succ_of_le hk))⟩
  · omega

/-! ### The block moves (R164, R165) -/

/-- I after a block move over n registers from s: under Q.inc_i, past the bytes that lie inside memory. -/
def blockEnd (s : State) (n : Nat) : Nat :=
  if s.quirks.incI = true then max s.i.toNat (min (s.i.toNat + n) 4096) else s.i.toNat

theorem AtBlock.toNat_i_eq_blockEnd {s t : State} {n : Nat} (hq : t.quirks = s.quirks)
    (h : AtBlock s.i.toNat (0 + blockCount s.i.toNat 0 n) t) : t.i.toNat = blockEnd s n := by
  rw [AtBlock, hq] at h
  rw [h, blockEnd, blockCount]
  congr 1
  omega

/-- A block inside memory is moved whole. -/
theorem blockEnd_inside {s : State} {n : Nat} (h : s.i.toNat + n ≤ 4095) :
    blockEnd s (n + 1) = if s.quirks.incI = true then s.i.toNat + n + 1 else s.i.toNat := by
  rw [blockEnd]
  congr 1
  omega

/-- A block that leaves memory ends at the first address outside. -/
theorem blockEnd_outside {s : State} {n : Nat} (h : 4095 < s.i.toNat + n) :
    blockEnd s (n + 1) = if s.quirks.incI = true then max s.i.toNat 4096 else s.i.toNat := by
  rw [blockEnd]
  congr 1
  omega

/-- Where LD [I] leaves I; `exec_storeRegs_read` says what it stores. -/
theorem exec_storeRegs_i {x : Ix16} {s t : State} (h : exec (.storeRegs x) s = .next t) :
    t.i.toNat = blockEnd s (x.val + 1) := by
  obtain ⟨u, hstore, hu, hi, -, -⟩ := blockStore_spec (regsUpTo x) s.i.toNat 0 s
    (by rw [regsUpTo_val, regsUpTo_length]) (AtBlock.start s)
  rw [regsUpTo_length] at hi
  have hti : t.i = u.i := by
    rw [exec, execStoreRegs, hstore] at h
    split at h <;> cases h <;> rfl
  rw [hti]
  exact hi.toNat_i_eq_blockEnd (by rw [hu])

/-- LD Vx, [I] loads each register whose byte lies inside memory, whether or not a later one faults, and
leaves I at the end of the block. -/
theorem exec_loadRegs_reg_i {x : Ix16} {s t : State} (h : exec (.loadRegs x) s = .next t) :
    (∀ k : Ix16, k ≤ x → dataAddr s k.val ≤ 4095 → t.reg k = s.mem.read (dataAddr s k.val)) ∧
    t.i.toNat = blockEnd s (x.val + 1) := by
  obtain ⟨u, hload, hu, hi, hreg, -⟩ := blockLoad_spec (regsUpTo x) s.i.toNat 0 s
    (by rw [regsUpTo_val, regsUpTo_length]) (AtBlock.start s)
  rw [regsUpTo_length] at hi
  have ht : t.v = u.v ∧ t.i = u.i := by
    rw [exec, execLoadRegs, hload] at h
    split at h <;> cases h <;> exact ⟨rfl, rfl⟩
  obtain ⟨htv, hti⟩ := ht
  constructor
  · intro k hk hin
    rw [State.reg_eq, htv]
    exact hreg k (mem_regsUpTo.2 hk) hin
  · rw [hti]
    exact hi.toNat_i_eq_blockEnd (by rw [hu])

/-- A register whose byte lies inside memory comes before the last one, if that one's byte does not. -/
theorem le_of_dataAddr_inside {s : State} {k x : Ix16} (hout : 4095 < s.i.toNat + x.val)
    (hin : dataAddr s k.val ≤ 4095) : k ≤ x := by
  rw [Fin.le_def]
  unfold dataAddr at hin
  omega

/-- A register's byte lies inside memory, if the byte of a later register does. -/
theorem dataAddr_inside_of_le {s : State} {k x : Ix16} (hin : s.i.toNat + x.val ≤ 4095) (hk : k ≤ x) :
    dataAddr s k.val ≤ 4095 := by
  rw [Fin.le_def] at hk
  unfold dataAddr
  omega

/-- The registers whose bytes lie inside memory, as the statements list them. -/
theorem mem_regs_inside {s : State} {k : Ix16} :
    k ∈ (List.finRange 16).filter (fun k => dataAddr s k.val ≤ 4095) ↔ dataAddr s k.val ≤ 4095 := by
  simp

/-- Settles O44: with the last byte inside memory, `exec_storeRegs_cases` leaves the case without a fault. -/
theorem blockStoreWritesRegisters : Obligations.BlockStoreWritesRegisters := by
  intro x s hin
  obtain ⟨m, i, ⟨-, e⟩ | ⟨hout, -⟩, -, -, hframe⟩ := exec_storeRegs_cases x s
  · exact ⟨_, e, rfl, fun k hk => exec_storeRegs_read e hk (dataAddr_inside_of_le hin hk),
      (exec_storeRegs_i e).trans (blockEnd_inside hin),
      ((Keeps.refl _ s).setMem fun a ha => hframe a fun k hk _ hak =>
        ha (hak ▸ dataAddr_mem_range s (Nat.lt_succ_of_le hk))).setI nofun⟩
  · omega

/-- Settles O45: with the last byte inside memory, `exec_loadRegs_cases` leaves the case without a fault. -/
theorem blockLoadReadsRegisters : Obligations.BlockLoadReadsRegisters := by
  intro x s hin
  obtain ⟨v, i, ⟨-, e⟩ | ⟨hout, -⟩, -, hframe⟩ := exec_loadRegs_cases x s
  · obtain ⟨hreg, hi⟩ := exec_loadRegs_reg_i e
    exact ⟨_, e, rfl, fun k hk => hreg k hk (dataAddr_inside_of_le hin hk),
      hi.trans (blockEnd_inside hin),
      ((Keeps.refl _ s).setRegs fun k hk => hframe k fun hmoved =>
        hk (mem_regsUpTo.2 hmoved.1)).setI nofun⟩
  · omega

/-! ### The faults at the end of memory (R222) -/

/-- Settles O46: the address of the last byte leaves the faulting case of `exec_ldB_cases` and of
`exec_storeRegs_cases`, and the bytes before it are those a store writes in either case. -/
theorem storesBeyondMemoryFault : Obligations.StoresBeyondMemoryFault := by
  intro x s
  constructor
  · intro hout
    obtain ⟨m, ⟨hin, -⟩ | ⟨-, e⟩, -, hframe⟩ := exec_ldB_cases x s
    · omega
    · obtain ⟨hhundreds, htens, -⟩ := exec_ldB_digits e
      refine ⟨_, e, ⟨rfl, rfl, rfl⟩, hhundreds, htens,
        ((Keeps.refl _ s).setMem fun a ha => hframe a fun k _ hin hak => ?_).raise rfl _⟩
      have hk : k < 2 := by unfold dataAddr at hin; omega
      exact ha (hak ▸ dataAddr_mem_range_inside s hk hin)
  · intro hout
    obtain ⟨m, i, ⟨hin, -⟩ | ⟨-, e⟩, -, -, hframe⟩ := exec_storeRegs_cases x s
    · omega
    · refine ⟨_, e, ⟨rfl, rfl, rfl⟩,
        fun k hin => exec_storeRegs_read e (le_of_dataAddr_inside hout hin) hin,
        (exec_storeRegs_i e).trans (blockEnd_outside hout), Keeps.raise ?_ rfl _⟩
      exact ((Keeps.refl _ s).setMem fun a ha => hframe a fun k hk hin hak =>
        ha (hak ▸ dataAddr_mem_range_inside s (Nat.lt_succ_of_le hk) hin)).setI nofun

/-- Settles O47: the address of the last byte leaves the faulting case of `exec_loadRegs_cases` and of
`exec_drw_cases`; DRW's changes nothing before it faults. -/
theorem loadsBeyondMemoryFault : Obligations.LoadsBeyondMemoryFault := by
  intro x y n s
  constructor
  · intro hout
    obtain ⟨v, i, ⟨hin, -⟩ | ⟨-, e⟩, -, hframe⟩ := exec_loadRegs_cases x s
    · omega
    · obtain ⟨hreg, hi⟩ := exec_loadRegs_reg_i e
      refine ⟨_, e, ⟨rfl, rfl, rfl⟩, fun k hin => hreg k (le_of_dataAddr_inside hout hin) hin,
        hi.trans (blockEnd_outside hout), Keeps.raise ?_ rfl _⟩
      exact ((Keeps.refl _ s).setRegs fun k hk => hframe k fun hmoved =>
        hk (mem_regs_inside.2 hmoved.2)).setI nofun
  · intro hn hout
    rcases exec_drw_cases x y n s with ⟨hin, -⟩ | ⟨-, e⟩
    · exact absurd ⟨hn, hout⟩ hin
    · exact ⟨_, e, raise_raised_keeps _ s⟩

end Sys2Proof.Machine
end

section
/-! PROOFS. Random number and display: RND, CLS, and DRW against the sprite bits of the statements, once and
twice (spec/43_random_display.md R180 to R183; 60_exceptions.md R246). -/

namespace Sys2Proof.Machine

/-! ### RND (R180, R246) -/

theorem rndByte_of_listed {s : State} {b : Byte} {rest : List Byte} (h : s.rndIn = b :: rest) :
    s.rndByte = b := by
  rw [State.rndByte, h]

theorem rndByte_of_unlisted {s : State} (h : s.rndIn = []) : s.rndByte = Config.rand8 s.rndCount := by
  rw [State.rndByte, h]

/-- Settles O48: RND takes the byte on the port, and writes it masked; which byte that is depends on the host's
list alone. -/
theorem randomByteIsMasked : Obligations.RandomByteIsMasked := by
  intro x nn s
  have hreg : (s.takeRnd.setReg x (s.rndByte &&& nn)).reg x = s.rndByte &&& nn := State.reg_setReg_same ..
  refine ⟨_, rfl, rfl, fun b rest hlist => ⟨?_, ?_⟩, fun hnone => ⟨?_, ?_⟩, rfl,
    ((Keeps.refl _ s).takeRnd rfl).setReg List.mem_cons_self _⟩
  · rw [hreg, rndByte_of_listed hlist]
  · rw [setReg_rndIn, takeRnd_rndIn, hlist, List.tail_cons]
  · rw [hreg, rndByte_of_unlisted hnone]
  · rw [setReg_rndIn, takeRnd_rndIn, hnone, List.tail_nil]

/-! ### CLS (R181) -/

/-- Settles O49: a word is the encoding of what it decodes to, and that of CLS is 0x00E0. -/
theorem clsClearsDisplay : Obligations.ClsClearsDisplay := by
  refine ⟨fun w => ⟨fun h => ?_, fun h => ?_⟩, fun s =>
    ⟨_, rfl, Display.pixel_clear, rfl, (Keeps.refl _ s).setPix rfl _⟩⟩
  · obtain ⟨-, henc⟩ := encodeOfDecode w
    rw [← henc, h, encode]
  · rw [h]
    exact decodeWord_encode (i := .cls) rfl

/-! ### The bits of a sprite (R182) -/

theorem rowBit_iff (on : Nat → Bool) (x0 n x' : Nat) :
    rowBit on x0 n x' = true ↔ ∃ j, j < n ∧ x' = x0 + j ∧ on j = true := by
  rw [rowBit, Bool.and_eq_true, decide_eq_true_iff]
  constructor
  · rintro ⟨⟨hle, hlt⟩, hon⟩
    exact ⟨x' - x0, by omega, by omega, hon⟩
  · rintro ⟨j, hj, rfl, hon⟩
    exact ⟨⟨by omega, by omega⟩, by rwa [Nat.add_sub_cancel_left]⟩

theorem coverBit_iff (m : Memory) (base x0 y0 n : Nat) (y' : Fin 32) (x' : Fin 64) :
    coverBit m base x0 y0 n y' x' = true ↔
      ∃ r, r < n ∧ y'.val = y0 + r ∧ byteBit (m.read (base + r)) x0 x'.val = true := by
  rw [← rowBit_iff (fun r => byteBit (m.read (base + r)) x0 x'.val)]
  rfl

/-- The bit of DRW's sprite at a pixel, as the drawing computes it. -/
def spriteAt (s : State) (x y : Ix16) (n : Fin 16) (y' : Fin 32) (x' : Fin 64) : Bool :=
  coverBit s.mem (dataAddr s 0) (spriteCol (s.reg x)) (spriteRow (s.reg y)) n.val y' x'

/-- The bit that the drawing computes is the one the statements speak of. -/
theorem spriteAt_iff (s : State) (x y : Ix16) (n : Fin 16) (y' : Fin 32) (x' : Fin 64) :
    spriteAt s x y n y' x' = true ↔ spriteBit s x y n y' x' := by
  rw [spriteAt, coverBit_iff]
  simp only [byteBit, rowBit_iff]
  constructor
  · rintro ⟨r, hr, hrow, j, hj, hcol, hbit⟩
    exact ⟨r, j, hr, hj, hrow, hcol, hbit⟩
  · rintro ⟨r, j, hr, hj, hrow, hcol, hbit⟩
    exact ⟨r, hr, hrow, j, hj, hcol, hbit⟩

/-- A sprite is the same where I, memory and the two coordinates are. -/
theorem spriteAt_congr {s t : State} {x y : Ix16} (hi : t.i = s.i) (hmem : ∀ a, t.mem.read a = s.mem.read a)
    (hx : t.reg x = s.reg x) (hy : t.reg y = s.reg y) (n : Fin 16) : spriteAt t x y n = spriteAt s x y n := by
  funext y' x'
  simp only [spriteAt, coverBit, dataAddr, hi, hmem, hx, hy]

/-! ### One draw (R182) -/

/-- t is s after a draw of the sprite: its bits are xored into the display, and VF flags a collision. -/
structure Drawn (x y : Ix16) (n : Fin 16) (s t : State) : Prop where
  pc : t.pc = s.pc
  pixel : ∀ y' x', t.pix.pixel y' x' = (s.pix.pixel y' x' ^^ spriteAt s x y n y' x')
  flag : ∃ c, t.reg VF = flagByte c ∧
    (c = true ↔ ∃ y' x', spriteAt s x y n y' x' = true ∧ s.pix.pixel y' x' = true)
  keeps : Keeps { regs := [VF], pix := true } s t

/-- With its bytes inside memory, `exec_drw_cases` leaves the case that draws. -/
theorem exec_drw_drawn {n : Fin 16} {s : State} (hin : n.val = 0 ∨ s.i.toNat + n.val ≤ 4096) (x y : Ix16) :
    ∃ t, exec (.drw x y n) s = .next t ∧ Drawn x y n s t := by
  obtain ⟨hpixel, hmark⟩ := drawSprite_spec s.mem (dataAddr s 0) (spriteCol (s.reg x)) (spriteRow (s.reg y))
    n.val s.pix
  rcases exec_drw_cases x y n s with ⟨-, e⟩ | ⟨hout, -⟩
  · exact ⟨_, e, rfl, hpixel, ⟨_, State.reg_setReg_same .., hmark⟩,
      ((Keeps.refl _ s).setPix rfl _).setFlag List.mem_cons_self _⟩
  · omega

namespace Drawn

variable {x y : Ix16} {n : Fin 16} {s t : State}

theorem pixel_of_spriteBit (h : Drawn x y n s t) {y' : Fin 32} {x' : Fin 64} (hbit : spriteBit s x y n y' x') :
    t.pix.pixel y' x' = !s.pix.pixel y' x' := by
  rw [h.pixel, (spriteAt_iff ..).2 hbit, Bool.xor_true]

theorem pixel_of_not_spriteBit (h : Drawn x y n s t) {y' : Fin 32} {x' : Fin 64}
    (hbit : ¬ spriteBit s x y n y' x') : t.pix.pixel y' x' = s.pix.pixel y' x' := by
  rw [h.pixel, Bool.eq_false_iff.2 (mt (spriteAt_iff ..).1 hbit), Bool.xor_false]

/-- A draw that leaves the coordinate registers alone leaves the sprite as it was. -/
theorem spriteAt_eq (h : Drawn x y n s t) (hx : x ≠ VF) (hy : y ≠ VF) : spriteAt t x y n = spriteAt s x y n :=
  spriteAt_congr (h.keeps.i rfl) (fun a => h.keeps.mem a List.not_mem_nil)
    (h.keeps.regs x (List.mem_singleton.not.2 hx)) (h.keeps.regs y (List.mem_singleton.not.2 hy)) n

end Drawn

/-- Settles O50: the draw of `exec_drw_drawn`, in the sprite bits of the statements. -/
theorem drawXorsSprite : Obligations.DrawXorsSprite := by
  intro x y n s hin
  obtain ⟨t, e, drawn⟩ := exec_drw_drawn hin x y
  obtain ⟨c, hflag, hc⟩ := drawn.flag
  simp only [spriteAt_iff] at hc
  refine ⟨t, e, drawn.pc, fun _ _ => drawn.pixel_of_spriteBit, fun _ _ => drawn.pixel_of_not_spriteBit,
    fun hhit => ?_, fun hmiss => ?_, drawn.keeps⟩
  · rw [hflag, flagByte_toNat, hc.2 hhit, Bool.toNat_true]
  · rw [hflag, flagByte_toNat, Bool.eq_false_iff.2 (mt hc.1 hmiss), Bool.toNat_false]

/-! ### Two draws (R183) -/

theorem flagByte_eq_one_iff (c : Bool) : flagByte c = 1 ↔ c = true := by
  cases c <;> decide

/-- Settles O51: both draws xor the same bits, so that they cancel; a pixel of the sprite is set after the first
exactly if it was clear before. -/
theorem drawTwiceRestores : Obligations.DrawTwiceRestores := by
  intro x y n s t u hx hy hin hfirst hsecond
  obtain ⟨_, e, first⟩ := exec_drw_drawn hin x y
  cases e.symm.trans hfirst
  have hin' : n.val = 0 ∨ t.i.toNat + n.val ≤ 4096 := by rwa [first.keeps.i rfl]
  obtain ⟨_, e, second⟩ := exec_drw_drawn hin' x y
  cases e.symm.trans hsecond
  have hsame : spriteAt t x y n = spriteAt s x y n := first.spriteAt_eq hx hy
  constructor
  · refine Display.ext fun y' x' => ?_
    rw [second.pixel, first.pixel, hsame, Bool.xor_assoc, Bool.xor_self, Bool.xor_false]
  · obtain ⟨c, hflag, hc⟩ := second.flag
    rw [hflag, flagByte_eq_one_iff, hc]
    refine exists_congr fun y' => exists_congr fun x' => and_congr_left fun hset => ?_
    rw [first.pixel] at hset
    rw [hsame]
    cases hs : s.pix.pixel y' x' <;> simpa [hs] using hset

end Sys2Proof.Machine
end

section
/-! PROOFS. Keys and timers: the key skips, LD Vx,K by its latch and the key vector, and the timer moves
(spec/44_keys_timers.md R200 to R205). -/

namespace Sys2Proof.Machine

/-! ### Key skips (R200, R201) -/

/-- Settles O52: an index of at most 15 leaves the skipping case of `exec_skp_cases` and of `exec_sknp_cases`. -/
theorem keySkipsReadKeyVector : Obligations.KeySkipsReadKeyVector := by
  intro x s k hk
  constructor
  · rcases exec_skp_cases x s with ⟨k', hk', e⟩ | ⟨hout, -⟩
    · obtain rfl : k' = k := Fin.ext (hk'.symm.trans hk)
      exact exists_next_of_skipIf e Iff.rfl
    · omega
  · rcases exec_sknp_cases x s with ⟨k', hk', e⟩ | ⟨hout, -⟩
    · obtain rfl : k' = k := Fin.ext (hk'.symm.trans hk)
      exact exists_next_of_skipIf_not e Bool.not_iff_not
    · omega

/-- Settles O53: an index above 15 leaves the faulting case of `exec_skp_cases` and of `exec_sknp_cases`. -/
theorem keyIndexAboveFifteenFaults : Obligations.KeyIndexAboveFifteenFaults := by
  intro x s hout
  constructor
  · rcases exec_skp_cases x s with ⟨k, hk, -⟩ | ⟨-, e⟩
    · omega
    · exact ⟨_, e, raise_raised_keeps _ s⟩
  · rcases exec_sknp_cases x s with ⟨k, hk, -⟩ | ⟨-, e⟩
    · omega
    · exact ⟨_, e, raise_raised_keeps _ s⟩

/-! ### LD Vx, K (R203) -/

theorem State.lowestKeyDown_eq_none_iff (s : State) :
    s.lowestKeyDown = none ↔ ∀ k : Ix16, s.key[k.val] = false := by
  rw [State.lowestKeyDown, ← Fin.find?_eq_find?_finRange]
  exact Fin.find?_eq_none_iff

theorem State.lowestKeyDown_eq_some_iff (s : State) (k : Ix16) :
    s.lowestKeyDown = some k ↔ s.key[k.val] = true ∧ ∀ j : Ix16, j < k → s.key[j.val] = false := by
  rw [State.lowestKeyDown, ← Fin.find?_eq_find?_finRange]
  exact Fin.find?_eq_some_iff

theorem exec_ldVxK_no_press {s : State} (x : Ix16) (hfree : s.wait.valid = false)
    (hnone : s.lowestKeyDown = none) :
    exec (.ldVxK x) s = .next (retry s) := by
  simp only [exec, execLdVxK, awaitPress, hfree, hnone, Bool.false_eq_true, if_false]

theorem exec_ldVxK_press {s : State} (x : Ix16) (hfree : s.wait.valid = false) {k : Ix16}
    (hk : s.lowestKeyDown = some k) :
    exec (.ldVxK x) s = .next (retry { s with wait := ⟨true, k⟩ }) := by
  simp only [exec, execLdVxK, awaitPress, hfree, hk, Bool.false_eq_true, if_false]

theorem exec_ldVxK_held {s : State} (x : Ix16) (hlatched : s.wait.valid = true)
    (hdown : s.key[s.wait.key.val] = true) :
    exec (.ldVxK x) s = .next (retry s) := by
  simp only [exec, execLdVxK, awaitRelease, State.keyDown, hlatched, hdown, if_true]

theorem exec_ldVxK_release {s : State} (x : Ix16) (hlatched : s.wait.valid = true)
    (hup : s.key[s.wait.key.val] = false) :
    exec (.ldVxK x) s = .next (({ s with wait := ⟨false, s.wait.key⟩ } : State).setReg x
      (BitVec.ofNat 8 s.wait.key.val)) := by
  simp only [exec, execLdVxK, awaitRelease, State.keyDown, hlatched, hup, Bool.false_eq_true, if_true, if_false]

/-- A key index as a byte loses nothing. -/
theorem keyByte_toNat (k : Ix16) : (BitVec.ofNat 8 k.val).toNat = k.val := by
  rw [BitVec.toNat_ofNat]
  omega

/-- Settles O55: one lemma `exec_ldVxK_…` for each state of the latch and of the keys. -/
theorem keyWaitPressThenRelease : Obligations.KeyWaitPressThenRelease := by
  intro x s
  refine ⟨fun hfree hnone => ?_, fun k hfree hdown hlowest => ?_, fun hlatched hdown => ?_,
    fun hlatched hup => ?_⟩
  · exact ⟨_, exec_ldVxK_no_press x hfree (s.lowestKeyDown_eq_none_iff.2 hnone), rfl, (Keeps.refl _ s).retry⟩
  · exact ⟨_, exec_ldVxK_press x hfree ((s.lowestKeyDown_eq_some_iff k).2 ⟨hdown, hlowest⟩), rfl, rfl,
      ((Keeps.refl _ s).setWait rfl _).retry⟩
  · exact ⟨_, exec_ldVxK_held x hlatched hdown, rfl, (Keeps.refl _ s).retry⟩
  · refine ⟨_, exec_ldVxK_release x hlatched hup, rfl, ?_, rfl,
      ((Keeps.refl _ s).setWait rfl _).setReg List.mem_cons_self _⟩
    rw [State.reg_setReg_same, keyByte_toNat]

/-! ### Timer moves (R202, R204, R205) -/

/-- Settles O54: each move is one update of the state. -/
theorem timerMovesCopy : Obligations.TimerMovesCopy :=
  fun _ s =>
    ⟨⟨_, rfl, State.reg_setReg_same .., rfl, setReg_keeps ..⟩,
     ⟨_, rfl, rfl, rfl, (Keeps.refl _ s).setDt rfl _⟩,
     ⟨_, rfl, rfl, rfl, (Keeps.refl _ s).setSt rfl _⟩⟩

end Sys2Proof.Machine
end

section
/-! PROOFS. The faults of the execute phase: each instruction has at most one, its own, and taking it records
PC and leaves everything else as the instruction had it (spec/60_exceptions.md R221, R222, R224, R228). -/

namespace Sys2Proof.Machine

/-- The three instructions that can have moved bytes before they fault (60_exceptions.md R228). -/
def movesBytes (i : Instr) : Prop := ∃ x, i = .ldB x ∨ i = .storeRegs x ∨ i = .loadRegs x

/-- How an instruction ends: FAULT is as before, or the instruction raised its own fault, at the PC it
began with, and had changed nothing before unless it moves bytes. -/
theorem exec_fault_cases {i : Instr} {s t : State} (h : exec i s = .next t) :
    t.fault = s.fault ∨
    ∃ (f : Fault) (u : State), faultOf i = some f ∧ t = raise f u ∧ u.pc = s.pc ∧ (movesBytes i ∨ u = s) := by
  cases i
  case call a =>
    rcases exec_call_cases a s with ⟨hsp, e⟩ | ⟨-, e⟩ <;> cases e.symm.trans h
    exacts [.inl rfl, .inr ⟨_, s, rfl, rfl, rfl, .inr rfl⟩]
  case ret =>
    rcases exec_ret_cases s with ⟨k, -, e⟩ | ⟨-, e⟩ <;> cases e.symm.trans h
    exacts [.inl rfl, .inr ⟨_, s, rfl, rfl, rfl, .inr rfl⟩]
  case skp x =>
    rcases exec_skp_cases x s with ⟨k, -, e⟩ | ⟨-, e⟩ <;> cases e.symm.trans h
    exacts [.inl rfl, .inr ⟨_, s, rfl, rfl, rfl, .inr rfl⟩]
  case sknp x =>
    rcases exec_sknp_cases x s with ⟨k, -, e⟩ | ⟨-, e⟩ <;> cases e.symm.trans h
    exacts [.inl rfl, .inr ⟨_, s, rfl, rfl, rfl, .inr rfl⟩]
  case drw x y n =>
    rcases exec_drw_cases x y n s with ⟨-, e⟩ | ⟨-, e⟩ <;> cases e.symm.trans h
    exacts [.inl rfl, .inr ⟨_, s, rfl, rfl, rfl, .inr rfl⟩]
  case ldVxK x => rcases exec_ldVxK_cases x s with ⟨w, e⟩ | e <;> cases e.symm.trans h <;> exact .inl rfl
  case ldB x =>
    obtain ⟨m, ⟨-, e⟩ | ⟨-, e⟩, -⟩ := exec_ldB_cases x s <;> cases e.symm.trans h
    · exact .inl rfl
    · exact .inr ⟨_, { s with mem := m }, rfl, rfl, rfl, .inl ⟨x, .inl rfl⟩⟩
  case storeRegs x =>
    obtain ⟨m, i, ⟨-, e⟩ | ⟨-, e⟩, -⟩ := exec_storeRegs_cases x s <;> cases e.symm.trans h
    · exact .inl rfl
    · exact .inr ⟨_, { s with mem := m, i := i }, rfl, rfl, rfl, .inl ⟨x, .inr (.inl rfl)⟩⟩
  case loadRegs x =>
    obtain ⟨v, i, ⟨-, e⟩ | ⟨-, e⟩, -⟩ := exec_loadRegs_cases x s <;> cases e.symm.trans h
    · exact .inl rfl
    · exact .inr ⟨_, { s with v := v, i := i }, rfl, rfl, rfl, .inl ⟨x, .inr (.inr rfl)⟩⟩
  all_goals (cases h; exact .inl rfl)

/-- Settles O24: the two ends of `exec_fault_cases`. -/
theorem faultsByInstruction : Obligations.FaultsByInstruction := by
  intro i s t h
  rcases exec_fault_cases h with hsame | ⟨f, u, hown, rfl, -⟩
  · exact .inl hsame
  · exact .inr (by simp [hown])

/-- An instruction that moves bytes changes its registers, I, its store addresses and the fault only. -/
theorem exec_keeps_of_movesBytes {i : Instr} {s t : State} (hi : movesBytes i) (h : exec i s = .next t) :
    Keeps { regs := writtenRegs i, i := true, mem := storeAddrs s i, fault := true } s t := by
  obtain ⟨x, rfl | rfl | rfl⟩ := hi <;> exact { exec_keeps h with i := nofun }

/-- Settles O25: the fault end of `exec_fault_cases`, with the frame of the instructions that move bytes; for
every other one the fault is all that changed. -/
theorem executeFaultIsPrecise : Obligations.ExecuteFaultIsPrecise := by
  intro i s t f hrun h hfault
  rcases exec_fault_cases h with hsame | ⟨f', u, -, rfl, hpc, hbefore⟩
  · simp [hfault, hrun] at hsame
  · obtain rfl : f' = f := by simpa using hfault
    refine ⟨⟨hpc, rfl, hpc⟩, ?_⟩
    rcases hbefore with hmoves | rfl
    · exact ⟨exec_keeps_of_movesBytes hmoves h, .inl hmoves⟩
    · exact ⟨(Keeps.refl _ u).raise rfl f', .inr ((Keeps.refl _ u).raise rfl f')⟩

end Sys2Proof.Machine
end

section
/-! PROOFS. The host's events one at a time: what a faulted core does at each, TimerTick and KeySample on a
running core, and that a step answers a next state exactly at the events within the host's contract
(spec/60_exceptions.md R223, R237, R244, R245). -/

namespace Sys2Proof.Machine

/-! ### The timers and the keys (R237, R244) -/

theorem countDown_toNat (b : Byte) : (countDown b).toNat = b.toNat - 1 := by
  unfold countDown
  split
  · next h => rw [h]; rfl
  · next h =>
    have hpos : b.toNat ≠ 0 := fun e => h (BitVec.eq_of_toNat_eq e)
    exact BitVec.toNat_sub_of_le (Nat.one_le_iff_ne_zero.2 hpos)

theorem timerTick_running {s : State} (h : s.running) :
    timerTick s = { s with dt := countDown s.dt, st := countDown s.st } := if_pos h

theorem timerTick_of_fault {s : State} (h : s.fault ≠ none) : timerTick s = s := if_neg h

theorem keySample_running {s : State} (h : s.running) (keys : Word) :
    keySample keys s = { s with key := Vector.ofFn fun k => keys.getLsbD k.val } := if_pos h

theorem keySample_of_fault {s : State} (h : s.fault ≠ none) (keys : Word) : keySample keys s = s := if_neg h

/-- With a TimerTick first in store a step is that TimerTick. -/
theorem step_of_timerTick {s : State} {rest : List Event} (h : s.schedule = .timerTick :: rest) :
    step s = .next (timerTick { s with schedule := rest }) := (step_of_event h).trans (if_pos rfl)

/-- With a KeySample first in store a step is that KeySample. -/
theorem step_of_keySample {s : State} {keys : Word} {rest : List Event}
    (h : s.schedule = .keySample keys :: rest) :
    step s = .next (keySample keys { s with schedule := rest }) := (step_of_event h).trans (if_pos rfl)

/-- Settles O56: `timerTick` is one update of the state or, on a faulted core, none. -/
theorem timerTickSaturates : Obligations.TimerTickSaturates := by
  intro s rest hfirst
  have same := Keeps.refl { dt := true, st := true } { s with schedule := rest }
  rw [step_of_timerTick hfirst]
  by_cases hf : s.fault = none
  · rw [timerTick_running (s := { s with schedule := rest }) hf]
    exact ⟨_, rfl, rfl, rfl, fun _ => ⟨countDown_toNat s.dt, countDown_toNat s.st⟩, fun h => absurd hf h,
      (same.setDt rfl (countDown s.dt)).setSt rfl (countDown s.st)⟩
  · rw [timerTick_of_fault (s := { s with schedule := rest }) hf]
    exact ⟨_, rfl, rfl, rfl, fun h => absurd h hf, fun _ => ⟨rfl, rfl⟩, same⟩

/-- Settles O57: `keySample` writes the key vector or, on a faulted core, nothing. -/
theorem keySampleReplacesKeys : Obligations.KeySampleReplacesKeys := by
  intro s keys rest hfirst
  rw [step_of_keySample hfirst]
  by_cases hf : s.fault = none
  · rw [keySample_running (s := { s with schedule := rest }) hf]
    exact ⟨_, rfl, fun _ k => Vector.getElem_ofFn k.isLt, fun h => absurd hf h, rfl⟩
  · rw [keySample_of_fault (s := { s with schedule := rest }) hf]
    exact ⟨_, rfl, fun h => absurd h hf, fun _ => rfl, rfl⟩

/-! ### A faulted core (R223) -/

theorem hostIteration_of_fault {s : State} (h : s.fault ≠ none) (dt : Rat) (keys : Word) :
    hostIteration dt keys s = .next s := if_neg h

/-- No legal event but Reset changes a faulted core. -/
theorem perform_of_fault {e : Event} (hlegal : e.legal = true) (hreset : ∀ p, e ≠ .reset p) {s : State}
    (hf : s.fault ≠ none) : perform e s = .next s := by
  unfold perform
  rw [if_pos hlegal]
  cases e with
  | reset p => exact absurd rfl (hreset p)
  | keySample keys => exact congrArg _ (keySample_of_fault hf keys)
  | cpuStep => exact cpuStep_of_fault hf
  | timerTick => exact congrArg _ (timerTick_of_fault hf)
  | hostIteration dt keys => exact hostIteration_of_fault hf dt keys

/-- Settles O9: with nothing in store the CpuStep does nothing, and otherwise the event in store does. -/
theorem faultedCoreIgnoresEvents : Obligations.FaultedCoreIgnoresEvents := by
  intro s hf
  constructor
  · intro hempty
    rw [step_of_empty hempty]
    exact cpuStep_of_fault hf
  · intro e rest hfirst hlegal hreset
    rw [step_of_event hfirst]
    exact perform_of_fault hlegal hreset hf

/-! ### Legal events answer a next state, the others are refused (R245) -/

theorem cpuStep_next (s : State) : ∃ t, cpuStep s = .next t := by
  by_cases hf : s.fault = none
  · by_cases hp : s.pc.toNat ≤ 4094
    · rw [cpuStep_inside hf hp]
      exact everyInstructionAnswersNext _ _
    · exact ⟨_, cpuStep_outside hf (by omega)⟩
  · exact ⟨s, cpuStep_of_fault hf⟩

theorem cpuLoop_next (n : Nat) (s : State) : ∃ t, cpuLoop n s = .next t := by
  induction n generalizing s with
  | zero => exact ⟨s, rfl⟩
  | succ n ih =>
    rw [cpuLoop]
    split
    · obtain ⟨t, ht⟩ := cpuStep_next { s with cpuAcc := s.cpuAcc - 1 / s.rates.cpuHz }
      rw [ht]
      exact ih t
    · exact ⟨s, rfl⟩

theorem cpuPart_next (dt : Rat) (s : State) : ∃ t, cpuPart dt s = .next t := cpuLoop_next _ _

/-- An iteration is its CPU part and, unless that faulted, its timer part. -/
theorem hostIteration_of_cpuPart {s u : State} {dt : Rat} {keys : Word} (hf : s.running)
    (h : cpuPart dt (keySample keys s) = .next u) :
    hostIteration dt keys s = .next (if u.fault = none then timerPart dt u else u) := by
  rw [hostIteration, if_pos hf, h]
  exact (apply_ite Host.Outcome.next _ _ _).symm

theorem hostIteration_next (dt : Rat) (keys : Word) (s : State) : ∃ t, hostIteration dt keys s = .next t := by
  by_cases hf : s.fault = none
  · obtain ⟨u, hu⟩ := cpuPart_next dt (keySample keys s)
    exact ⟨_, hostIteration_of_cpuPart hf hu⟩
  · exact ⟨s, hostIteration_of_fault hf dt keys⟩

theorem perform_next {e : Event} (h : e.legal = true) (s : State) : ∃ t, perform e s = .next t := by
  unfold perform
  rw [if_pos h]
  cases e with
  | reset p => exact ⟨_, Flow.outcome_eq _⟩
  | keySample keys => exact ⟨_, rfl⟩
  | cpuStep => exact cpuStep_next s
  | timerTick => exact ⟨_, rfl⟩
  | hostIteration dt keys => exact hostIteration_next dt keys s

/-- An event that breaks the host's contract is refused. -/
theorem perform_of_illegal {e : Event} (h : e.legal = false) (s : State) :
    perform e s = .refused .outsideHostContract := if_neg (ne_true_of_eq_false h)

/-- Settles O27: with nothing in store the step is a CpuStep; otherwise the event in store is legal or not. -/
theorem stepAnswersNextOrContractRefusal : Obligations.StepAnswersNextOrContractRefusal := by
  intro s
  cases hsched : s.schedule with
  | nil =>
    rw [step_of_empty hsched]
    exact .inl ⟨nofun, cpuStep_next s⟩
  | cons e rest =>
    rw [step_of_event hsched]
    cases hlegal : e.legal with
    | true =>
      refine .inl ⟨fun e' rest' heq => ?_, perform_next hlegal _⟩
      cases heq
      exact hlegal
    | false => exact .inr ⟨⟨e, rest, rfl, hlegal⟩, perform_of_illegal hlegal _⟩

end Sys2Proof.Machine
end

section
/-! PROOFS. The host iteration: each of its loops turns once for every period that fits into the accumulated
time, so that it is a row of CpuSteps or of TimerTicks with an exact remainder, and a fault ends the CPU loop
early (spec/60_exceptions.md R223, R238, R240, R241, R244). -/

namespace Sys2Proof.Machine

/-! ### Periods in the accumulated time (R241) -/

theorem periodsIn_eq_natFloor (acc hz : Rat) : periodsIn acc hz = ⌊acc * hz⌋₊ := by
  rw [← Int.floor_toNat]
  rfl

theorem le_periodsIn_iff {k : Nat} (acc hz : Rat) (hk : 0 < k) :
    k ≤ periodsIn acc hz ↔ (k : Int) ≤ (acc * hz).floor := by
  rw [periodsIn]
  omega

theorem periodsIn_sub_periods (acc : Rat) {hz : Rat} (hpos : 0 < hz) (n : Nat) :
    periodsIn (acc - n / hz) hz = periodsIn acc hz - n := by
  rw [periodsIn_eq_natFloor, sub_mul, div_mul_cancel₀ _ hpos.ne', Nat.floor_sub_natCast, periodsIn_eq_natFloor]

/-- While periods are left a turn is due, and it takes one of them away. -/
theorem due_of_succ_le_periodsIn {n : Nat} {acc hz : Rat} (hpos : 0 < hz) (h : n + 1 ≤ periodsIn acc hz) :
    1 / hz ≤ acc ∧ n ≤ periodsIn (acc - 1 / hz) hz := by
  constructor
  · rw [div_le_iff₀ hpos, ← Nat.floor_pos, ← periodsIn_eq_natFloor]
    omega
  · have hone := periodsIn_sub_periods acc hpos 1
    rw [Nat.cast_one] at hone
    omega

theorem sub_period_sub_periods (acc hz : Rat) (n : Nat) : acc - 1 / hz - n / hz = acc - (n + 1 : Nat) / hz := by
  push_cast
  ring

theorem periodsIn_period {hz : Rat} (hpos : 0 < hz) : periodsIn (1 / hz) hz = 1 := by
  rw [periodsIn_eq_natFloor, one_div_mul_cancel hpos.ne', Nat.floor_one]

theorem periodsIn_eq {n : Nat} {acc hz : Rat} (h : (n : Int) = (acc * hz).floor) : periodsIn acc hz = n := by
  rw [periodsIn, ← h, Int.toNat_natCast]

/-! ### The CPU loop -/

/-- The loop does nothing once a fault is recorded (R223). -/
theorem cpuLoop_of_fault {s : State} (h : s.fault ≠ none) (n : Nat) : cpuLoop n s = .next s := by
  cases n with
  | zero => rfl
  | succ n => exact if_neg fun hcond => h hcond.2

/-- A due turn is one CpuStep and takes a period away. -/
theorem cpuLoop_turn {s t : State} {acc : Rat} (hrun : s.running) (hdue : 1 / s.rates.cpuHz ≤ acc)
    (h : cpuStep s = .next t) (n : Nat) :
    cpuLoop (n + 1) { s with cpuAcc := acc } = cpuLoop n { t with cpuAcc := acc - 1 / s.rates.cpuHz } := by
  rw [cpuLoop, if_pos ⟨hdue, hrun⟩]
  simp only [cpuStep_cpuAcc _ _ _ h]

theorem cpuSteps_succ {s t : State} (h : cpuStep s = .next t) (n : Nat) :
    cpuSteps (n + 1) s = cpuSteps n t := by
  rw [cpuSteps, h]

theorem cpuSteps_of_fault {s : State} (h : s.fault ≠ none) (n : Nat) : cpuSteps n s = .next s := by
  induction n with
  | zero => rfl
  | succ n ih => rw [cpuSteps_succ (cpuStep_of_fault h), ih]

/-- CpuSteps that end without fault began without one. -/
theorem running_of_cpuSteps {n : Nat} {s u : State} (h : cpuSteps n s = .next u) (hu : u.running) :
    s.running := by
  by_contra hf
  rw [cpuSteps_of_fault hf] at h
  cases h
  exact hf hu

/-- As long as no CpuStep faults, n of the due turns are n CpuSteps, and take n periods away. -/
theorem cpuLoop_of_cpuSteps {n m : Nat} {s u : State} {acc : Rat} (hpos : 0 < s.rates.cpuHz)
    (hdue : n ≤ periodsIn acc s.rates.cpuHz) (h : cpuSteps n s = .next u) (hu : u.running) :
    cpuLoop (n + m) { s with cpuAcc := acc } = cpuLoop m { u with cpuAcc := acc - n / s.rates.cpuHz } := by
  induction n generalizing s acc with
  | zero => cases h; simp
  | succ n ih =>
    obtain ⟨t, ht⟩ := cpuStep_next s
    obtain ⟨-, -, hrates⟩ := cpuStep_clock ht
    have hrun := running_of_cpuSteps h hu
    obtain ⟨hturn, hleft⟩ := due_of_succ_le_periodsIn hpos hdue
    rw [Nat.add_right_comm, cpuLoop_turn hrun hturn ht, ← sub_period_sub_periods, ← hrates]
    rw [← hrates] at hpos hleft
    exact ih hpos hleft (cpuSteps_succ ht n ▸ h)

/-- The loop leaves TIMER_ACC and the rates. -/
theorem cpuLoop_clock {n : Nat} {s t : State} (h : cpuLoop n s = .next t) :
    t.timerAcc = s.timerAcc ∧ t.rates = s.rates := by
  induction n generalizing s with
  | zero => cases h; exact ⟨rfl, rfl⟩
  | succ n ih =>
    rw [cpuLoop] at h
    split at h
    · split at h
      · next u hu =>
        obtain ⟨-, htimer, hrates⟩ := cpuStep_clock hu
        obtain ⟨htimer', hrates'⟩ := ih h
        exact ⟨htimer'.trans htimer, hrates'.trans hrates⟩
      · cases h
      · cases h
    · cases h; exact ⟨rfl, rfl⟩

/-- If the k-th CpuStep is the first to fault and is due, it ends the loop, which has taken k periods away. -/
theorem cpuLoop_of_faultsAt {k n : Nat} {s u : State} {acc : Rat} (hpos : 0 < s.rates.cpuHz)
    (hkn : k ≤ n) (hdue : n ≤ periodsIn acc s.rates.cpuHz) (h : FaultsAt k s u) :
    cpuLoop n { s with cpuAcc := acc } = .next { u with cpuAcc := acc - k / s.rates.cpuHz } := by
  obtain ⟨j, b, rfl, hj, hb, hstep, hu⟩ := h
  obtain ⟨m, rfl⟩ := Nat.exists_eq_add_of_le' hkn
  have hj' : j ≤ periodsIn acc s.rates.cpuHz := by omega
  have hrates : b.rates = s.rates := (cpuLoop_clock (cpuLoop_of_cpuSteps (m := 0) hpos hj' hj hb)).2
  have hturn : 1 / s.rates.cpuHz ≤ acc - j / s.rates.cpuHz :=
    (due_of_succ_le_periodsIn (n := m) hpos (by rw [periodsIn_sub_periods acc hpos]; omega)).1
  calc cpuLoop (m + (j + 1)) { s with cpuAcc := acc }
    _ = cpuLoop (j + (m + 1)) { s with cpuAcc := acc } := by rw [Nat.add_left_comm]
    _ = cpuLoop (m + 1) { b with cpuAcc := acc - j / s.rates.cpuHz } := cpuLoop_of_cpuSteps hpos hj' hj hb
    _ = cpuLoop m { u with cpuAcc := acc - j / s.rates.cpuHz - 1 / b.rates.cpuHz } :=
      cpuLoop_turn hb (hrates ▸ hturn) hstep m
    _ = .next { u with cpuAcc := acc - (j + 1 : Nat) / s.rates.cpuHz } := by
      rw [hrates, sub_right_comm, sub_period_sub_periods]
      exact cpuLoop_of_fault (s := { u with cpuAcc := acc - (j + 1 : Nat) / s.rates.cpuHz }) hu m

theorem FaultsAt.pos {k : Nat} {s u : State} (h : FaultsAt k s u) : 0 < k := by
  obtain ⟨j, b, rfl, -⟩ := h
  exact j.succ_pos

theorem FaultsAt.faulted {k : Nat} {s u : State} (h : FaultsAt k s u) : u.fault ≠ none := by
  obtain ⟨j, b, -, -, -, -, hu⟩ := h
  exact hu

/-- Of n CpuSteps in a row either none faults or one is the first to. -/
theorem cpuSteps_cases (n : Nat) {s : State} (hrun : s.running) :
    (∃ u, cpuSteps n s = .next u ∧ u.running) ∨ ∃ k u, k ≤ n ∧ FaultsAt k s u := by
  induction n generalizing s with
  | zero => exact .inl ⟨s, rfl, hrun⟩
  | succ n ih =>
    obtain ⟨t, ht⟩ := cpuStep_next s
    by_cases hf : t.fault = none
    · rcases ih hf with ⟨u, hu, hurun⟩ | ⟨k, u, hk, j, b, rfl, hj, hb, hstep, hu⟩
      · exact .inl ⟨u, (cpuSteps_succ ht n).trans hu, hurun⟩
      · exact .inr ⟨j + 2, u, by omega, j + 1, b, rfl, (cpuSteps_succ ht j).trans hj, hb, hstep, hu⟩
    · exact .inr ⟨1, t, by omega, 0, s, rfl, rfl, hrun, ht, hf⟩

/-! ### The timer loop -/

/-- A TimerTick looks at neither accumulator and leaves them. -/
theorem timerTick_accs (s : State) (cpu timer : Rat) :
    timerTick { s with cpuAcc := cpu, timerAcc := timer } =
      { timerTick s with cpuAcc := cpu, timerAcc := timer } := by
  by_cases hf : s.fault = none
  · rw [timerTick_running hf]
    exact timerTick_running hf
  · rw [timerTick_of_fault hf]
    exact timerTick_of_fault hf

theorem timerTick_rates (s : State) : (timerTick s).rates = s.rates := by
  obtain ⟨dt, st, e⟩ := timerTick_eq s
  rw [e]

/-- n of the due turns are n TimerTicks, and take n periods away. -/
theorem timerLoop_eq {n : Nat} {s : State} (cpu : Rat) {acc : Rat} (hpos : 0 < s.rates.timerHz)
    (hdue : n ≤ periodsIn acc s.rates.timerHz) :
    timerLoop n { s with cpuAcc := cpu, timerAcc := acc } =
      { timerTicks n s with cpuAcc := cpu, timerAcc := acc - n / s.rates.timerHz } := by
  induction n generalizing s acc with
  | zero => simp [timerLoop, timerTicks]
  | succ n ih =>
    obtain ⟨hturn, hleft⟩ := due_of_succ_le_periodsIn hpos hdue
    rw [timerLoop, if_pos hturn, timerTick_accs s cpu, timerTicks, ← sub_period_sub_periods,
      ← timerTick_rates s]
    rw [← timerTick_rates s] at hpos hleft
    exact ih hpos hleft

/-- The timer loop raises no fault. -/
theorem timerLoop_fault (n : Nat) (s : State) : (timerLoop n s).fault = s.fault := by
  induction n generalizing s with
  | zero => rfl
  | succ n ih =>
    rw [timerLoop]
    split
    · obtain ⟨dt, st, e⟩ := timerTick_eq { s with timerAcc := s.timerAcc - 1 / s.rates.timerHz }
      rw [ih, e]
    · rfl

/-! ### The two parts of an iteration (R240) -/

/-- Without a fault the CPU part is one CpuStep for every period. -/
theorem cpuPart_of_cpuSteps {n : Nat} {dt : Rat} {s u : State} (hpos : 0 < s.rates.cpuHz)
    (hn : periodsIn (s.cpuAcc + dt) s.rates.cpuHz = n) (h : cpuSteps n s = .next u) (hu : u.running) :
    cpuPart dt s = .next { u with cpuAcc := s.cpuAcc + dt - n / s.rates.cpuHz } := by
  rw [cpuPart, hn]
  exact cpuLoop_of_cpuSteps (m := 0) hpos hn.ge h hu

/-- The CPU part leaves a faulted state exactly if one of its CpuSteps is the first to fault. -/
theorem cpuPart_faulted_iff {dt : Rat} {s t : State} (hrun : s.running) (hpos : 0 < s.rates.cpuHz) :
    cpuPart dt s = .next t ∧ t.fault ≠ none ↔
      ∃ (k : Nat) (u : State), (k : Int) ≤ ((s.cpuAcc + dt) * s.rates.cpuHz).floor ∧ FaultsAt k s u ∧
        t = { u with cpuAcc := s.cpuAcc + dt - k / s.rates.cpuHz } := by
  constructor
  · rintro ⟨h, hf⟩
    rcases cpuSteps_cases (periodsIn (s.cpuAcc + dt) s.rates.cpuHz) hrun with ⟨u, hu, hurun⟩ | ⟨k, u, hk, hku⟩
    · cases (cpuPart_of_cpuSteps hpos rfl hu hurun).symm.trans h
      exact absurd hurun hf
    · cases (cpuLoop_of_faultsAt hpos hk le_rfl hku).symm.trans h
      exact ⟨k, u, (le_periodsIn_iff _ _ hku.pos).1 hk, hku, rfl⟩
  · rintro ⟨k, u, hk, hku, rfl⟩
    exact ⟨cpuLoop_of_faultsAt hpos ((le_periodsIn_iff _ _ hku.pos).2 hk) le_rfl hku, hku.faulted⟩

/-- The timer part is one TimerTick for every period; it leaves CPU_ACC. -/
theorem timerPart_eq {n : Nat} {dt : Rat} {s : State} (cpu : Rat) (hpos : 0 < s.rates.timerHz)
    (hn : periodsIn (s.timerAcc + dt) s.rates.timerHz = n) :
    timerPart dt { s with cpuAcc := cpu } =
      { timerTicks n s with cpuAcc := cpu, timerAcc := s.timerAcc + dt - n / s.rates.timerHz } := by
  rw [timerPart, hn]
  exact timerLoop_eq cpu hpos hn.ge

theorem timerPart_fault (dt : Rat) (s : State) : (timerPart dt s).fault = s.fault := timerLoop_fault _ _

/-- An iteration leaves a faulted state exactly if its CPU part does, and it is the same one. -/
theorem hostIteration_faulted_iff {dt : Rat} {keys : Word} {s t : State} (hrun : s.running) :
    hostIteration dt keys s = .next t ∧ t.fault ≠ none ↔
      cpuPart dt (keySample keys s) = .next t ∧ t.fault ≠ none := by
  obtain ⟨u, hu⟩ := cpuPart_next dt (keySample keys s)
  rw [hostIteration_of_cpuPart hrun hu, hu]
  by_cases hf : u.fault = none
  · rw [if_pos hf]
    constructor <;> rintro ⟨h, ht⟩ <;> cases h
    · exact absurd ((timerPart_fault dt u).trans hf) ht
    · exact absurd hf ht
  · rw [if_neg hf]

/-- The key sample and the CPU part leave TIMER_ACC and the rates. -/
theorem cpuPart_keySample_clock {dt : Rat} {keys : Word} {s u : State}
    (h : cpuPart dt (keySample keys s) = .next u) : u.timerAcc = s.timerAcc ∧ u.rates = s.rates := by
  obtain ⟨key, hkeys⟩ := keySample_eq keys s
  rw [hkeys] at h
  exact (cpuLoop_clock h :)

/-- An iteration without a fault: a CpuStep, then a TimerTick, for every period of its clock. -/
theorem hostIteration_of_cpuSteps {n m : Nat} {dt : Rat} {keys : Word} {s u : State} (hrun : s.running)
    (hcpuHz : 0 < s.rates.cpuHz) (htimerHz : 0 < s.rates.timerHz)
    (hn : periodsIn (s.cpuAcc + dt) s.rates.cpuHz = n) (hm : periodsIn (s.timerAcc + dt) s.rates.timerHz = m)
    (hsteps : cpuSteps n (keySample keys s) = .next u) (hu : u.running) :
    hostIteration dt keys s = .next
      { timerTicks m u with
        cpuAcc := s.cpuAcc + dt - n / s.rates.cpuHz
        timerAcc := s.timerAcc + dt - m / s.rates.timerHz } := by
  have hcpu : cpuPart dt (keySample keys s) =
      .next { u with cpuAcc := s.cpuAcc + dt - n / s.rates.cpuHz } := by
    obtain ⟨key, hkeys⟩ := keySample_eq keys s
    rw [hkeys] at hsteps ⊢
    exact cpuPart_of_cpuSteps hcpuHz hn hsteps hu
  obtain ⟨hacc, hrates⟩ : u.timerAcc = s.timerAcc ∧ u.rates = s.rates := (cpuPart_keySample_clock hcpu :)
  rw [← hrates] at htimerHz
  rw [← hacc, ← hrates] at hm
  rw [hostIteration_of_cpuPart hrun hcpu, if_pos hu, timerPart_eq _ htimerHz hm, hacc, hrates]

/-! ### The statements -/

/-- Settles O58: `hostIteration_of_cpuSteps`, in the state the step takes its iteration from. -/
theorem iterationRunsDueStepsAndTicks : Obligations.IterationRunsDueStepsAndTicks := by
  intro s u rest dt keys n m hfirst hrun hdt _ _ hcpuHz htimerHz hn hm hsteps hu
  rw [step_of_hostIteration hfirst hdt]
  exact hostIteration_of_cpuSteps (s := { s with schedule := rest }) hrun hcpuHz htimerHz
    (periodsIn_eq hn) (periodsIn_eq hm) hsteps hu

/-- Settles O59: the iteration's faulted states are those of its CPU part, which leaves TIMER_ACC. -/
theorem faultingIterationSkipsTimers : Obligations.FaultingIterationSkipsTimers := by
  intro s t rest dt keys hfirst hrun hdt hpos
  have hiff := hostIteration_faulted_iff (dt := dt) (keys := keys) (t := t)
    (s := { s with schedule := rest }) hrun
  rw [step_of_hostIteration hfirst hdt]
  constructor
  · obtain ⟨key, hkeys⟩ := keySample_eq keys { s with schedule := rest }
    rw [hiff, hkeys]
    exact cpuPart_faulted_iff hrun hpos
  · intro h ht
    exact (cpuPart_keySample_clock (hiff.1 ⟨h, ht⟩).1).1

/-- Settles O60: one period is due, and its TimerTick counts both timers down. -/
theorem onePeriodIsOneTick : Obligations.OnePeriodIsOneTick := by
  intro s u keys hrun hempty hpos hcpu hu
  obtain ⟨hacc, hrates⟩ := cpuPart_keySample_clock hcpu
  rw [hempty] at hacc
  have htimer : timerPart (1 / s.rates.timerHz) u = _ :=
    timerPart_eq (n := 1) u.cpuAcc (hrates ▸ hpos) (by rw [hacc, hrates, zero_add, periodsIn_period hpos])
  refine ⟨_, hostIteration_of_cpuPart hrun hcpu, ?_⟩
  rw [if_pos hu, htimer]
  simp only [timerTicks, timerTick_running hu]
  refine ⟨countDown_toNat _, countDown_toNat _, ?_⟩
  rw [hacc, hrates, Nat.cast_one, zero_add, sub_self]

end Sys2Proof.Machine
end

section
/-! PROOFS. The Reset event: it clears the state and loads the font, then it loads the ROM at 0x200 or takes a
load failure, which leaves memory as the font load left it (spec/70_reset_and_hazards.md R260, R263 to R265). -/

namespace Sys2Proof.Machine

/-! ### The cleared state with the font in memory (R260, R263) -/

/-- The state a Reset has reached when it turns to the ROM. -/
def fontLoaded (p : Session) (s : State) : State :=
  { clearAll p s with mem := Memory.writeBytes 0x50 p.font.toList [] }

theorem resetEvent_eq (p : Session) (s : State) :
    resetEvent p s = .next (loadRom p.rom (fontLoaded p s)).state := by
  rw [resetEvent, loadFont_eq, Flow.going_andThen, Flow.outcome_eq]
  rfl

/-- With a Reset of positive rates first in store a step is that Reset. -/
theorem step_of_reset {s : State} {p : Session} {rest : List Event} (h : s.schedule = .reset p :: rest)
    (hcpu : 0 < p.rates.cpuHz) (htimer : 0 < p.rates.timerHz) :
    step s = .next (loadRom p.rom (fontLoaded p { s with schedule := rest })).state := by
  have hlegal : (Event.reset p).legal = true := by simp [Event.legal, hcpu, htimer]
  rw [step_of_event h, perform, if_pos hlegal]
  exact resetEvent_eq p _

theorem fontLoaded_read_font (p : Session) (s : State) (k : Fin 80) :
    (fontLoaded p s).mem.read (0x50 + k.val) = p.font[k.val] := by
  rw [fontLoaded, Memory.read_writeBytes, Vector.length_toList, if_pos (by omega), Nat.add_sub_cancel_left]
  simp

theorem fontLoaded_read_outside (p : Session) (s : State) {a : Nat} (h : ¬ (0x50 ≤ a ∧ a < 0xA0)) :
    (fontLoaded p s).mem.read a = 0 := by
  rw [fontLoaded, Memory.read_writeBytes, Vector.length_toList, if_neg h]
  exact Memory.unlisted_outside h

/-! ### The two ends of the ROM load (R264, R265) -/

/-- An unreadable or oversized ROM is a load failure. -/
theorem loadRom_failure {rom : Option (List Byte)}
    (h : rom = none ∨ ∃ bytes, rom = some bytes ∧ 3584 < bytes.length) (s : State) :
    loadRom rom s = .raised (raise .loadFailure s) := by
  rcases h with rfl | ⟨bytes, rfl, hlong⟩
  · rfl
  · exact loadRom_long hlong s

/-! ### The statements -/

/-- Settles O13: the step ends in `fontLoaded` with the ROM written at 0x200, clear of the font; every field
but memory has the value `clearAll` gives it. -/
theorem resetEventLoadsSession : Obligations.ResetEventLoadsSession := by
  intro s p rest rom hfirst hcpu htimer hrom hlen
  have hread := Memory.read_writeBytes rom (fontLoaded p { s with schedule := rest }).mem 0x200
  rw [step_of_reset hfirst hcpu htimer, hrom, loadRom_fits hlen]
  refine ⟨_, rfl, rfl, rfl, rfl, rfl, rfl, rfl, rfl, fun k => ?reg, rfl, rfl, rfl, Display.pixel_clear,
    fun k => ?key, rfl, rfl, rfl, fun k => ?font, fun k hk => ?rom, fun a hfont hout => ?zero⟩
  case reg => exact Vector.getElem_replicate _
  case key => exact Vector.getElem_replicate _
  case font =>
    have hapart : ¬ (0x200 ≤ 0x50 + k.val ∧ 0x50 + k.val < 0x200 + rom.length) := by omega
    exact (hread _).trans ((if_neg hapart).trans (fontLoaded_read_font p _ k))
  case rom =>
    refine (hread _).trans ?_
    rw [if_pos (by omega), Nat.add_sub_cancel_left]
  case zero => exact (hread a).trans ((if_neg hout).trans (fontLoaded_read_outside p _ hfont))

/-- Settles O14: the step ends in `fontLoaded` with the load failure raised, so that memory holds the font and
nothing else. -/
theorem resetEventLoadFailure : Obligations.ResetEventLoadFailure := by
  intro s p rest hfirst hcpu htimer hbad
  rw [step_of_reset hfirst hcpu htimer, loadRom_failure hbad]
  exact ⟨_, rfl, rfl, rfl, rfl, rfl, fontLoaded_read_font p { s with schedule := rest },
    fun _ => fontLoaded_read_outside p { s with schedule := rest }⟩

end Sys2Proof.Machine
end
